-- ==== Sys2Proof/Word.lean ====
section
/-! DEFINITION. The word types of the block (00_scope.md R10, R11) and the pixel of its output. -/

namespace Sys2Proof

/-- A register byte, a VRAM byte or a byte of a transaction (R11). -/
abbrev Byte := BitVec 8

/-- A colour index, 0..15; 0 is transparent (R11, 90_conflicts.md C7). -/
abbrev Colour := BitVec 4

/-- A VRAM table base or mask, 14 bits (R11, R96). -/
abbrev Addr := BitVec 14

/-- A 16-bit operand field of a transaction, or the mode key K (R71, R81). -/
abbrev Half := BitVec 16

/-- One pixel of the output frame: three 8-bit components (R28, R180). -/
structure Rgb where
  r : Byte
  g : Byte
  b : Byte
  deriving DecidableEq, Repr

end Sys2Proof
end

