-- ==== Sys2Proof/Machine/Memory.lean ====
section
/-! DEFINITION. VRAM: a flat store of 16384 bytes (20_memory.md R41 to R50), held as the list of
its bytes that differ from what an unlisted address reads as. -/

namespace Sys2Proof.Machine

/-- The listed bytes of VRAM, in strictly rising address order. -/
abbrev Memory := List Host.Cell

/-- The number of bytes of VRAM (R23, R41). -/
def vramSize : Nat := 16384

/-- What an address that nothing has written reads as. DESIGN CHOICE, unsafe (log 11): the spec
leaves `P_INIT_VRAM` OPEN (10_state.md R32). -/
def unlistedByte : Byte := 0x00#8

/-- The byte at an address below 16384. -/
def Memory.read : Memory → Nat → Byte
  | [], _ => unlistedByte
  | (b, w) :: m, a =>
    if a = b then w
    else if a < b then unlistedByte
    else Memory.read m a

/-- A cell in front of a memory, left out where it holds what an unlisted address reads as. -/
def Memory.put (a : Nat) (v : Byte) (m : Memory) : Memory :=
  if v = unlistedByte then m else (a, v) :: m

/-- `MemWrite(a, 1, v)` for an address below 16384 (00_scope.md R12). -/
def Memory.write : Memory → Nat → Byte → Memory
  | [], a, v => Memory.put a v []
  | (b, w) :: m, a, v =>
    if a < b then Memory.put a v ((b, w) :: m)
    else if a = b then Memory.put a v m
    else (b, w) :: Memory.write m a v

/-- `MemWrite` of consecutive bytes from an address on (46_host_interface.md R183). -/
def Memory.writeBytes : Memory → Nat → List Byte → Memory
  | m, _, [] => m
  | m, a, v :: vs => Memory.writeBytes (Memory.write m a v) (a + 1) vs

/-- `MemRead(a, 1)`: the byte at `a mod 16384` (R42, R44). -/
def memRead (m : Memory) (a : Nat) : Byte :=
  Memory.read m (a % vramSize)

/-- Every listed address is above `low` and below 16384, addresses rise strictly, and no cell
holds what an unlisted address reads as. -/
def Memory.wfFrom : Nat → Memory → Bool
  | _, [] => true
  | low, (a, v) :: m =>
    decide (low ≤ a) && decide (a < vramSize) && decide (v ≠ unlistedByte) && Memory.wfFrom (a + 1) m

/-- The canonical form of VRAM: equal memories are equal data. -/
def Memory.wf (m : Memory) : Bool :=
  Memory.wfFrom 0 m

/-- A VRAM with the given first bytes; the rest reads as unlisted (`P_INIT_VRAM`, R32; log 11). -/
def Memory.ofBytes (bytes : List Byte) : Memory :=
  Memory.writeBytes [] 0 (bytes.take vramSize)

end Sys2Proof.Machine
end

