-- ==== Sys2Proof/Config.lean ====
section
/-! DEFINITION. What is fixed for one instance of the block: the modes and the parameters of
00_scope.md R9. The default values the spec takes stand in Machine/Reference.lean. -/

namespace Sys2Proof

/-- The four documented display modes (R13, R70). -/
inductive Mode where
  /-- Graphics I. -/
  | g1
  /-- Graphics II. -/
  | g2
  /-- Multicolor. -/
  | mc
  /-- Text. -/
  | tx
  deriving DecidableEq, Repr

/-- `P_UNDOC_MODE` (R9, R70): the mode each of the four combinations with at least two of
M1, M2, M3 set selects, written out as a table (log 10). -/
structure UndocModes where
  /-- M1 and M2 set, M3 clear. -/
  m1m2 : Mode
  /-- M1 and M3 set, M2 clear. -/
  m1m3 : Mode
  /-- M2 and M3 set, M1 clear. -/
  m2m3 : Mode
  /-- All three set. -/
  m1m2m3 : Mode
  deriving DecidableEq, Repr

/-- The parameters of R9 that an instance keeps for its whole life. DESIGN CHOICE, safe (log 9):
they stand in State as data no step changes, so a statement about every state is a statement
about every value of them. `P_INIT_REGS` and `P_INIT_VRAM` matter at reset only and are the
arguments of `State.create`. -/
structure Params where
  /-- `P_PALETTE`. -/
  palette : Vector Rgb 16
  /-- `P_EC_SHIFT`. -/
  ecShift : Nat
  /-- `P_TRANSPARENT_COLLIDES`. -/
  transparentCollides : Bool
  /-- `P_GII_COLOR_PER_ROW`. -/
  giiColorPerRow : Bool
  /-- `P_UNDOC_MODE`. -/
  undoc : UndocModes
  deriving DecidableEq, Repr

end Sys2Proof
end

