-- ==== Sys2Proof/Machine/Reference.lean ====
section
/-! DEFINITION. The default value the spec takes for each parameter (00_scope.md R9). -/

namespace Sys2Proof.Machine

/-- The default `P_PALETTE` (45_palette_compositor.md R175). -/
def referencePalette : Vector Rgb 16 := #v[
  ⟨0x00#8, 0x00#8, 0x00#8⟩,
  ⟨0x00#8, 0x00#8, 0x00#8⟩,
  ⟨0x21#8, 0xC8#8, 0x42#8⟩,
  ⟨0x5E#8, 0xDC#8, 0x78#8⟩,
  ⟨0x54#8, 0x55#8, 0xED#8⟩,
  ⟨0x7D#8, 0x76#8, 0xFC#8⟩,
  ⟨0xD4#8, 0x52#8, 0x4D#8⟩,
  ⟨0x42#8, 0xEB#8, 0xF5#8⟩,
  ⟨0xFC#8, 0x55#8, 0x54#8⟩,
  ⟨0xFF#8, 0x79#8, 0x78#8⟩,
  ⟨0xD4#8, 0xC1#8, 0x54#8⟩,
  ⟨0xE6#8, 0xCE#8, 0x80#8⟩,
  ⟨0x21#8, 0xB0#8, 0x3B#8⟩,
  ⟨0xC9#8, 0x5B#8, 0xBA#8⟩,
  ⟨0xCC#8, 0xCC#8, 0xCC#8⟩,
  ⟨0xFF#8, 0xFF#8, 0xFF#8⟩]

/-- The default `P_UNDOC_MODE` (30_encoding.md R70). -/
def referenceUndoc : UndocModes where
  m1m2 := .g1
  m1m3 := .g2
  m2m3 := .g2
  m1m2m3 := .g2

/-- Every parameter at the value the spec takes by default (R9). -/
def referenceParams : Params where
  palette := referencePalette
  ecShift := 32
  transparentCollides := true
  giiColorPerRow := true
  undoc := referenceUndoc

/-- The reference value of `P_INIT_REGS` (10_state.md R32). -/
def referenceRegs : Vector Byte 8 := Vector.replicate 8 0x00#8

end Sys2Proof.Machine
end

