-- ==== Sys2Proof/Syntax.lean ====
section
/-! DEFINITION. The instruction set: one constructor per row of spec/opcode_table.json. -/

namespace Sys2Proof

/-- What the block can be told to perform. The first four rows are the host transactions
(46_host_interface.md R181 to R187). The five mode rows are selected by the mode key
`K = (REG[1] << 8) | REG[0]` (30_encoding.md R71) and say how the RENDER in progress makes the
pixel at its raster position (43_background_renderer.md R138; log 6). -/
inductive Instr where
  /-- SETREGS: the payload bytes, whatever their number (R181, R84). -/
  | setregs (payload : List Byte)
  /-- SETVRAM: OFFSET and the payload bytes (R183). -/
  | setvram (offset : Half) (payload : List Byte)
  /-- READVRAM: ADDR (R185). -/
  | readvram (addr : Half)
  /-- RENDER (R187). -/
  | render
  /-- MODE.G1: M1 = M2 = M3 = 0 (R139). -/
  | modeG1
  /-- MODE.G1_UNDOC_M1M2: M1 = M2 = 1, M3 = 0 (R70, R139). -/
  | modeG1UndocM1M2
  /-- MODE.G2: M3 = 1, M1 and M2 any (R140). -/
  | modeG2
  /-- MODE.MC: M2 = 1, M1 = M3 = 0 (R141). -/
  | modeMC
  /-- MODE.TX: M1 = 1, M2 = M3 = 0 (R146). -/
  | modeTX
  deriving DecidableEq, Repr

end Sys2Proof
end

