-- ==== Sys2Proof/Machine/State.lean ====
section
/-! DEFINITION. The state of one instance of the block (10_state.md), plain data. -/

namespace Sys2Proof.Machine

/-- An entry `(i, r)` of a scanline's list `active` (10_state.md R26, 44_sprite_engine.md R156). -/
structure ActiveSprite where
  /-- The sprite attribute index i (R153). -/
  index : Fin 32
  /-- The displayed row r of the sprite on this line (R155). -/
  row : Nat
  deriving DecidableEq, Repr

/-- The per-scanline sprite state (10_state.md R26). -/
structure LineState where
  /-- The sprites selected for the line, in increasing index order, at most 4. -/
  active : List ActiveSprite
  /-- The columns already covered by a processed sprite. -/
  cover : Vector Bool 256
  /-- The sprite colour of each column; 0 is no opaque sprite pixel. -/
  scol : Vector Colour 256
  deriving DecidableEq, Repr

/-- The per-frame accumulators (10_state.md R27). -/
structure FrameAcc where
  /-- Some scanline had a fifth sprite in range (R160). -/
  acc5S : Bool
  /-- The index of the fifth sprite of the first such scanline (R160). -/
  accFSN : BitVec 5
  /-- Two processed sprites covered one pixel (R163). -/
  accC : Bool
  deriving DecidableEq, Repr

/-- A RENDER in progress: the raster position (10_state.md R25), the sprite state of its scanline
(R26), the accumulators (R27) and the pixels made so far, in row-major order (R28, R180). -/
structure Raster where
  /-- The scanline. -/
  y : Fin 192
  /-- The pixel column. -/
  x : Fin 256
  /-- The sprite state of scanline `y`, once its first pixel is made. -/
  line : LineState
  /-- The accumulators. -/
  acc : FrameAcc
  /-- Elements `0 .. y*256 + x - 1` of the frame. -/
  pixels : List Rgb
  deriving DecidableEq, Repr

/-- The result code of a transaction (60_exceptions.md R196). -/
inductive ResultCode where
  /-- The transaction completed. -/
  | ok
  /-- Raised by SETREGS: payload length not 8 (R197). -/
  | invalidLength
  /-- Raised by SETVRAM: offset > 16383 or offset + length > 16384 (R198). -/
  | outOfRange
  deriving DecidableEq, Repr

/-- What a RENDER returns beside its result code (46_host_interface.md R187). -/
structure Picture where
  /-- The frame, row-major (45_palette_compositor.md R180). -/
  frame : List Rgb
  /-- The status byte (10_state.md R21). -/
  status : Byte
  /-- The interrupt output INT (10_state.md R30). -/
  int : Bool
  deriving DecidableEq, Repr

/-- What a transaction returns to the host (30_encoding.md R80). -/
structure Reply where
  /-- The result code, of every transaction. -/
  code : ResultCode
  /-- The data byte, of READVRAM only. -/
  data : Option Byte
  /-- The frame, status byte and INT, of RENDER only. -/
  picture : Option Picture
  deriving DecidableEq, Repr

/-- One instance of the block. -/
structure State where
  /-- The parameters of the instance; no step changes them (00_scope.md R9; log 9). -/
  params : Params
  /-- The register bank REG[0] .. REG[7] (10_state.md R16). -/
  regs : Vector Byte 8
  /-- Video memory (10_state.md R23). -/
  vram : Memory
  /-- The RENDER in progress; none outside a RENDER (10_state.md R32; log 6). -/
  raster : Option Raster
  /-- The bytes the host has issued that are not performed yet (MODEL'S OWN; log 1). -/
  input : List Byte
  /-- What the latest completed transaction returned (MODEL'S OWN; log 5). -/
  reply : Option Reply
  deriving DecidableEq, Repr

/-- Faults: none. The block has no trap mechanism; its two errors are result codes after which
the host goes on (60_exceptions.md R196 to R201; log 13), so nothing stops the machine. -/
inductive Fault where
  deriving DecidableEq, Repr

/-- Why a step has no meaning to give. -/
inductive Refusal where
  /-- Raised by exec for an instruction with no meaning yet; safe. -/
  | notModelled (mnemonic : String)
  /-- Raised by step on a header byte 0x04 .. 0xFF, which spells no transaction
  (30_encoding.md R83; log 4); safe. -/
  | reservedHeader (header : Byte)
  /-- Raised by step when the issued bytes end inside a transaction (30_encoding.md R82; log 3);
  safe. -/
  | incompleteTransaction
  /-- Raised by the four host transactions while a RENDER is in progress
  (70_reset_and_hazards.md R222; 93 I17; log 7); safe. -/
  | renderInProgress
  /-- Raised by the five mode rows when no RENDER is in progress, since the raster position
  exists only during one (10_state.md R25; log 8); safe. -/
  | noRenderInProgress
  deriving DecidableEq, Repr

/-- The machine right after reset, the creation of an instance (70_reset_and_hazards.md R216,
R217; 10_state.md R32): parameters and registers at their reference values, nothing listed in
VRAM, no RENDER in progress, nothing issued and nothing returned. -/
def State.reset : State where
  params := referenceParams
  regs := referenceRegs
  vram := []
  raster := none
  input := []
  reply := none

end Sys2Proof.Machine
end

