-- ==== Sys2Proof/Machine/Registers.lean ====
section
/-! DEFINITION. The register decoder (41_register_decoder.md): the eight register bytes as typed
fields. Combinational and total (R96, R112). -/

namespace Sys2Proof.Machine

/-- The decoded fields (00_scope.md R13, 41_register_decoder.md R96). -/
structure Fields where
  /-- The active mode (R93). -/
  mode : Mode
  /-- Name-table base (R102). -/
  nt : Addr
  /-- Colour-table base (R103, R104). -/
  ct : Addr
  /-- Colour-table mask (R103, R104). -/
  ctmask : Addr
  /-- Pattern-table base (R105, R106). -/
  pg : Addr
  /-- Pattern-table mask (R105, R106). -/
  pgmask : Addr
  /-- Sprite-attribute-table base (R109). -/
  sa : Addr
  /-- Sprite-pattern-table base (R110). -/
  sp : Addr
  /-- Text foreground colour (R107). -/
  tc : Colour
  /-- Backdrop colour (R108). -/
  bd : Colour
  /-- Sprite source size: 16×16 rather than 8×8 (R99). -/
  size16 : Bool
  /-- Sprite magnification (R100). -/
  mag : Bool
  /-- Display enable (R97). -/
  blankN : Bool
  /-- Interrupt enable (R98). -/
  ie : Bool
  /-- External video, read by no rule (R95). -/
  extvid : Bool
  /-- 4K/16K select, read by no rule (R94). -/
  vr16k : Bool
  deriving DecidableEq, Repr

/-! ## Mode (R92, R93) -/

/-- M1 = R1[4] (R92). -/
def regM1 (regs : Vector Byte 8) : Bool := regs[1].getLsbD 4
/-- M2 = R1[3] (R92). -/
def regM2 (regs : Vector Byte 8) : Bool := regs[1].getLsbD 3
/-- M3 = R0[1] (R92). -/
def regM3 (regs : Vector Byte 8) : Bool := regs[0].getLsbD 1

/-- The mode three mode bits select: the documented combinations, and `P_UNDOC_MODE` for the
others (R93; 30_encoding.md R70). -/
def selectMode (undoc : UndocModes) (m1 m2 m3 : Bool) : Mode :=
  match m1, m2, m3 with
  | false, false, false => .g1
  | false, false, true => .g2
  | false, true, false => .mc
  | true, false, false => .tx
  | true, true, false => undoc.m1m2
  | true, false, true => undoc.m1m3
  | false, true, true => undoc.m2m3
  | true, true, true => undoc.m1m2m3

/-- The active mode of a register bank (R93). -/
def modeOf (p : Params) (regs : Vector Byte 8) : Mode :=
  selectMode p.undoc (regM1 regs) (regM2 regs) (regM3 regs)

/-- The mode key `K = (REG[1] << 8) | REG[0]` (30_encoding.md R71). -/
def modeKey (regs : Vector Byte 8) : Half :=
  (regs[1].setWidth 16 <<< 8) ||| regs[0].setWidth 16

/-! ## Table bases (R102 to R110; 30_encoding.md R63 to R69) -/

/-- A base: a register field zero-extended to 14 bits and shifted left (30_encoding.md R69). -/
def tableBase {w : Nat} (field : BitVec w) (shift : Nat) : Addr :=
  field.setWidth 14 <<< shift

/-- NT (R102). -/
def ntBase (r2 : Byte) : Addr := tableBase (r2.extractLsb' 0 4) 10
/-- CT outside Graphics II (R103). -/
def ctBase (r3 : Byte) : Addr := tableBase r3 6
/-- CT in Graphics II (R104). -/
def ctBaseG2 (r3 : Byte) : Addr := tableBase (r3.extractLsb' 7 1) 13
/-- CTMASK in Graphics II (R104). -/
def ctMaskG2 (r3 : Byte) : Addr := tableBase (r3.extractLsb' 0 7) 6 ||| 0x3F#14
/-- PG outside Graphics II (R105). -/
def pgBase (r4 : Byte) : Addr := tableBase (r4.extractLsb' 0 3) 11
/-- PG in Graphics II (R106). -/
def pgBaseG2 (r4 : Byte) : Addr := tableBase (r4.extractLsb' 2 1) 13
/-- PGMASK in Graphics II (R106). -/
def pgMaskG2 (r4 : Byte) : Addr := tableBase (r4.extractLsb' 0 2) 11 ||| 0x7FF#14
/-- SA (R109). -/
def saBase (r5 : Byte) : Addr := tableBase (r5.extractLsb' 0 7) 7
/-- SP (R110). -/
def spBase (r6 : Byte) : Addr := tableBase (r6.extractLsb' 0 3) 11
/-- CTMASK and PGMASK outside Graphics II: every address bit (R103, R105). -/
def fullMask : Addr := 0x3FFF#14

/-! ## The decode record (R96) -/

/-- The fields of a register bank read as mode `m`. -/
def decodeAs (m : Mode) (regs : Vector Byte 8) : Fields where
  mode := m
  nt := ntBase regs[2]
  ct := if m = .g2 then ctBaseG2 regs[3] else ctBase regs[3]
  ctmask := if m = .g2 then ctMaskG2 regs[3] else fullMask
  pg := if m = .g2 then pgBaseG2 regs[4] else pgBase regs[4]
  pgmask := if m = .g2 then pgMaskG2 regs[4] else fullMask
  sa := saBase regs[5]
  sp := spBase regs[6]
  tc := regs[7].extractLsb' 4 4
  bd := regs[7].extractLsb' 0 4
  size16 := regs[1].getLsbD 1
  mag := regs[1].getLsbD 0
  blankN := regs[1].getLsbD 6
  ie := regs[1].getLsbD 5
  extvid := regs[0].getLsbD 0
  vr16k := regs[1].getLsbD 7

/-- `decode(REG)` (R96). The latch of 10_state.md R20 always equals it (log 14). -/
def decodeRegs (p : Params) (regs : Vector Byte 8) : Fields :=
  decodeAs (modeOf p regs) regs

/-- The source pattern size S (R99). -/
def Fields.sourceSize (d : Fields) : Nat :=
  if d.size16 then 16 else 8

/-- The displayed extent `E = S << MAG` (R100). -/
def Fields.extent (d : Fields) : Nat :=
  d.sourceSize <<< d.mag.toNat

end Sys2Proof.Machine
end

