-- ==== Sys2Proof/Machine/Address.lean ====
section
/-! DEFINITION. The VRAM address resolver (42_address_resolver.md). Addresses are natural numbers,
so that "no address wraps" (R131) is a fact and not a convention (log 18); `memRead` takes them modulo
16384 (R116). -/

namespace Sys2Proof.Machine

/-! ## Coordinates -/

/-- The cell row or column of a line or pixel column, `v >> 3` (R117). -/
def cellOf (v : Nat) : Nat := v >>> 3
/-- The pixel row or column within the cell, `v & 7` (R117). -/
def withinCell (v : Nat) : Nat := v &&& 7
/-- The border test of Text mode (R119, R143). -/
def textBorder (x : Nat) : Bool := decide (x < 8 ∨ 248 ≤ x)
/-- The glyph column of a Text pixel column (R119). -/
def textCol (x : Nat) : Nat := (x - 8) / 6
/-- The pixel column within the glyph (R119). -/
def textPx (x : Nat) : Nat := (x - 8) % 6

/-! ## Name table -/

/-- The width W of the name table in cells (R120). -/
def nameWidth (m : Mode) : Nat :=
  if m = .tx then 40 else 32

/-- `nameAddr(row, col)` (R120). -/
def nameAddr (d : Fields) (row col : Nat) : Nat :=
  d.nt.toNat + row * nameWidth d.mode + col

/-! ## Graphics I -/

/-- G1 pattern address (R121). -/
def g1PatAddr (d : Fields) (name line : Nat) : Nat :=
  d.pg.toNat + name * 8 + line

/-- G1 colour address (R122). -/
def g1ColAddr (d : Fields) (name : Nat) : Nat :=
  d.ct.toNat + (name >>> 3)

/-! ## Graphics II -/

/-- The third of the screen a cell row lies in (R123). -/
def thirdOf (row : Nat) : Nat := row >>> 3

/-- The offset of a pattern row in the three banks (R124, R125). -/
def g2Offset (third name line : Nat) : Nat :=
  (third <<< 11) ||| (name <<< 3) ||| line

/-- G2 pattern address (R124). -/
def g2PatAddr (d : Fields) (third name line : Nat) : Nat :=
  d.pg.toNat ||| (g2Offset third name line &&& d.pgmask.toNat)

/-- G2 colour address, for either value of `P_GII_COLOR_PER_ROW` (R125). -/
def g2ColAddr (p : Params) (d : Fields) (third name line : Nat) : Nat :=
  let off := if p.giiColorPerRow then g2Offset third name line else (third <<< 8) ||| name
  d.ct.toNat ||| (off &&& d.ctmask.toNat)

/-! ## Multicolor and Text -/

/-- MC colour-byte address (R126). -/
def mcAddr (d : Fields) (name row y : Nat) : Nat :=
  d.pg.toNat + name * 8 + ((row &&& 3) <<< 1) + ((y >>> 2) &&& 1)

/-- TX pattern address (R127). -/
def txPatAddr (d : Fields) (name line : Nat) : Nat :=
  d.pg.toNat + name * 8 + line

/-! ## Sprite tables -/

/-- Sprite attribute address (R128). -/
def attrAddr (d : Fields) (i : Fin 32) (k : Nat) : Nat :=
  d.sa.toNat + 4 * i.val + k

/-- Sprite pattern address, 8×8 (R129). -/
def spAddr (d : Fields) (name r : Nat) : Nat :=
  d.sp.toNat + name * 8 + r

/-- The first byte of a 16×16 sprite pattern; the two low bits of NAME are ignored (R130). -/
def spBase16 (d : Fields) (name : Nat) : Nat :=
  d.sp.toNat + (name &&& 0xFC) * 8

/-- The byte of source columns 0..7, 16×16 (R130). -/
def spAddrL (d : Fields) (name r : Nat) : Nat :=
  spBase16 d name + r

/-- The byte of source columns 8..15, 16×16 (R130). -/
def spAddrR (d : Fields) (name r : Nat) : Nat :=
  spBase16 d name + 16 + r

end Sys2Proof.Machine
end

