-- ==== Sys2Proof/Machine/Background.lean ====
section
/-! DEFINITION. The background renderer (43_background_renderer.md): the background colour index
of a pixel in each mode; 0 is transparent (R147). -/

namespace Sys2Proof.Machine

/-- The pixel bit of a pattern byte: bit 7 is the leftmost column (20_memory.md R46). -/
def patternBit (pbyte : Byte) (column : Nat) : Bool :=
  pbyte.getLsbD (7 - column)

/-- The high nibble of a colour byte: foreground, or the left block (20_memory.md R47). -/
def highNibble (b : Byte) : Colour := b.extractLsb' 4 4

/-- The low nibble of a colour byte: background, or the right block (20_memory.md R47). -/
def lowNibble (b : Byte) : Colour := b.extractLsb' 0 4

/-- Foreground for a 1 bit, background for a 0 bit (20_memory.md R46, R47). -/
def selectColour (bit : Bool) (cbyte : Byte) : Colour :=
  if bit then highNibble cbyte else lowNibble cbyte

/-- The name-table entry of the cell a pixel lies in, modes G1, G2, MC (R117, R120). -/
def cellName (d : Fields) (vram : Memory) (x y : Nat) : Nat :=
  (memRead vram (nameAddr d (cellOf y) (cellOf x))).toNat

/-- G1 pixel (R139). -/
def bgG1 (d : Fields) (vram : Memory) (x y : Nat) : Colour :=
  let name := cellName d vram x y
  let pbyte := memRead vram (g1PatAddr d name (withinCell y))
  let cbyte := memRead vram (g1ColAddr d name)
  selectColour (patternBit pbyte (withinCell x)) cbyte

/-- G2 pixel (R140). -/
def bgG2 (p : Params) (d : Fields) (vram : Memory) (x y : Nat) : Colour :=
  let third := thirdOf (cellOf y)
  let name := cellName d vram x y
  let pbyte := memRead vram (g2PatAddr d third name (withinCell y))
  let cbyte := memRead vram (g2ColAddr p d third name (withinCell y))
  selectColour (patternBit pbyte (withinCell x)) cbyte

/-- MC pixel (R141). -/
def bgMC (d : Fields) (vram : Memory) (x y : Nat) : Colour :=
  let name := cellName d vram x y
  let mbyte := memRead vram (mcAddr d name (cellOf y) y)
  if withinCell x < 4 then highNibble mbyte else lowNibble mbyte

/-- The glyph bit of a Text pixel inside the 40 columns (R144, R145). -/
def textBit (d : Fields) (vram : Memory) (x y : Nat) : Bool :=
  let name := (memRead vram (nameAddr d (cellOf y) (textCol x))).toNat
  let pbyte := memRead vram (txPatAddr d name (withinCell y))
  patternBit pbyte (textPx x)

/-- TX pixel: border (R143) or glyph colour (R146). -/
def bgTX (d : Fields) (vram : Memory) (x y : Nat) : Colour :=
  if textBorder x then d.bd
  else if textBit d vram x y then d.tc
  else d.bd

/-- Dispatch on the mode alone (R138). -/
def bgOfMode (p : Params) (d : Fields) (vram : Memory) (x y : Nat) : Colour :=
  match d.mode with
  | .g1 => bgG1 d vram x y
  | .g2 => bgG2 p d vram x y
  | .mc => bgMC d vram x y
  | .tx => bgTX d vram x y

/-- `bg(x, y)`: nothing when the screen is blanked (R136), else by mode (R138). -/
def background (p : Params) (d : Fields) (vram : Memory) (x y : Nat) : Colour :=
  if d.blankN then bgOfMode p d vram x y else 0#4

end Sys2Proof.Machine
end

