-- ==== Sys2Proof/Machine/Flags.lean ====
section
/-! DEFINITION. The status byte, the interrupt output and the result numbers (10_state.md R21,
R30; 60_exceptions.md R196). -/

namespace Sys2Proof.Machine

/-- The latch of the first overflowing scanline: `fifth` is the fifth sprite of the line just
evaluated, if it has one (44_sprite_engine.md R160). -/
def latchOverflow (acc : FrameAcc) (fifth : Option (Fin 32)) : FrameAcc :=
  match fifth with
  | none => acc
  | some i =>
    if acc.acc5S then acc
    else { acc with acc5S := true, accFSN := BitVec.ofNat 5 i.val }

/-- The collision flag after a line whose own collision test gave `hit` (R163). -/
def latchCollision (acc : FrameAcc) (hit : Bool) : FrameAcc :=
  { acc with accC := acc.accC || hit }

/-- One flag at a bit position of the status byte. -/
def flagAt (flag : Bool) (position : Nat) : Byte :=
  (BitVec.ofBool flag).setWidth 8 <<< position

/-- The FSN field: the latched number if 5S = 1, else 0 (10_state.md R21; log 21). -/
def fsnField (acc : FrameAcc) : Byte :=
  if acc.acc5S then acc.accFSN.setWidth 8 else 0x00#8

/-- `status <- (1 << 7) | (acc5S << 6) | (accC << 5) | (acc5S ? accFSN : 0)`
(46_host_interface.md R187). -/
def statusByte (acc : FrameAcc) : Byte :=
  flagAt true 7 ||| flagAt acc.acc5S 6 ||| flagAt acc.accC 5 ||| fsnField acc

/-- `INT = status.F ∧ IE` (10_state.md R30). -/
def intOutput (status : Byte) (ie : Bool) : Bool :=
  status.getLsbD 7 && ie

/-- The number of a result code (60_exceptions.md R196). -/
def ResultCode.number : ResultCode → Nat
  | .ok => 0
  | .invalidLength => 1
  | .outOfRange => 2

end Sys2Proof.Machine
end

