-- ==== Sys2Proof/Machine/Ops.lean ====
section
/-! DEFINITION. The named operations over the state that the meanings share: creating an
instance, issuing bytes, writing REG and VRAM, returning a result, delivering an error
(60_exceptions.md R200), beginning and guarding a RENDER. -/

namespace Sys2Proof.Machine

/-- Creation of an instance with its parameters, `P_INIT_REGS` and `P_INIT_VRAM`
(70_reset_and_hazards.md R216). -/
def State.create (params : Params) (initRegs : Vector Byte 8) (initVram : List Byte) : State where
  params := params
  regs := initRegs
  vram := Memory.ofBytes initVram
  raster := none
  input := []
  reply := none

/-- The host issues more transactions: their bytes join the end of the stream (R55; log 1). -/
def State.issue (bytes : List Byte) (s : State) : State :=
  { s with input := s.input ++ bytes }

/-- The wholesale write of the register bank, the only one there is (10_state.md R16). -/
def State.setRegs (regs : Vector Byte 8) (s : State) : State :=
  { s with regs := regs }

/-- Byte writes to consecutive VRAM addresses, the only store there is (46_host_interface.md
R183, R191). -/
def State.writeVram (offset : Nat) (bytes : List Byte) (s : State) : State :=
  { s with vram := Memory.writeBytes s.vram offset bytes }

/-- A transaction ends and returns. -/
def State.respond (reply : Reply) (s : State) : State :=
  { s with reply := some reply }

/-- The reply of a transaction that returns its result code only. -/
def codeReply (code : ResultCode) : Reply where
  code := code
  data := none
  picture := none

/-- The reply of READVRAM (R185). -/
def dataReply (data : Byte) : Reply where
  code := .ok
  data := some data
  picture := none

/-- The reply of RENDER (R187). -/
def pictureReply (picture : Picture) : Reply where
  code := .ok
  data := none
  picture := some picture

/-- Completion of SETREGS and SETVRAM: `result <- OK`. -/
def State.succeed (s : State) : State :=
  s.respond (codeReply .ok)

/-- Error delivery, the block's only "trap entry" (60_exceptions.md R200): the transaction ends
at once and returns its code; REG and VRAM stay, nothing is saved, no mode changes, no vector is
taken. There is no return operation: the host issues its next transaction (R201). -/
def State.raise (code : ResultCode) (s : State) : State :=
  s.respond (codeReply code)

/-- The sprite state at the start of every scanline (44_sprite_engine.md R152). -/
def LineState.start : LineState where
  active := []
  cover := Vector.replicate 256 false
  scol := Vector.replicate 256 0#4

/-- The accumulators at the start of every RENDER (10_state.md R27). -/
def FrameAcc.start : FrameAcc where
  acc5S := false
  accFSN := 0#5
  accC := false

/-- A RENDER at raster position (0, 0) with no pixel made (10_state.md R25). -/
def Raster.start : Raster where
  y := 0
  x := 0
  line := LineState.start
  acc := FrameAcc.start
  pixels := []

/-- The RENDER in progress becomes `raster`, or none is left. -/
def State.setRaster (raster : Option Raster) (s : State) : State :=
  { s with raster := raster }

/-- A RENDER begins (log 6). -/
def State.beginRender (s : State) : State :=
  s.setRaster (some Raster.start)

/-- A host transaction is performed only when no RENDER is in progress
(70_reset_and_hazards.md R222; log 7). -/
def perform (s : State) (next : State) : Host.Outcome State Fault Refusal :=
  match s.raster with
  | none => .next next
  | some _ => .refused .renderInProgress

end Sys2Proof.Machine
end

