-- ==== Sys2Proof/Machine/Sprites.lean ====
section
/-! DEFINITION. The sprite attribute evaluator and collision detector (44_sprite_engine.md), one
scanline at a time (R167). Sprite coordinates are signed integers (00_scope.md R11). -/

namespace Sys2Proof.Machine

/-! ## Evaluation: selecting the sprites of a line -/

/-- The sentinel Y that ends the scan of a line (R153). -/
def sentinelY : Byte := 0xD0#8

/-- The top screen line of a sprite, `Ys + 1` (R154). -/
def spriteTop (yByte : Byte) : Int :=
  (if 0xE0 < yByte.toNat then (yByte.toNat : Int) - 256 else (yByte.toNat : Int)) + 1

/-- The row of a sprite on scanline `y`, `r = y - top` (R155). -/
def spriteRow (y : Nat) (yByte : Byte) : Int :=
  (y : Int) - spriteTop yByte

/-- `0 <= r < E` (R155). -/
def rowInRange (extent : Nat) (r : Int) : Bool :=
  decide (0 ≤ r) && decide (r < (extent : Int))

/-- The Y byte of a sprite (R153). -/
def spriteYByte (d : Fields) (vram : Memory) (i : Fin 32) : Byte :=
  memRead vram (attrAddr d i 0)

/-- The scan of the entries still to visit, with the sprites selected so far: the selected
sprites, and the fifth in range if one was found, which ends the scan (R153, R155, R156). -/
def scanSprites (d : Fields) (vram : Memory) (y : Nat) :
    List (Fin 32) → List ActiveSprite → List ActiveSprite × Option (Fin 32)
  | [], active => (active, none)
  | i :: rest, active =>
    let yByte := spriteYByte d vram i
    if yByte = sentinelY then (active, none)
    else
      let r := spriteRow y yByte
      if rowInRange d.extent r then
        if active.length = 4 then (active, some i)
        else scanSprites d vram y rest (active ++ [⟨i, r.toNat⟩])
      else scanSprites d vram y rest active

/-- The scan of a whole line: entries 0, 1, ..., 31 in order (R153). -/
def scanLine (d : Fields) (vram : Memory) (y : Nat) : List ActiveSprite × Option (Fin 32) :=
  scanSprites d vram y (List.finRange 32) []

/-! ## Drawing -/

/-- The attribute byte `A` of a sprite: bit 7 early clock, bits 3:0 colour (30_encoding.md
R76). -/
def spriteAttr (d : Fields) (vram : Memory) (i : Fin 32) : Byte :=
  memRead vram (attrAddr d i 3)

/-- COLOR, bits 3:0 of the attribute byte (R161). -/
def spriteColour (d : Fields) (vram : Memory) (i : Fin 32) : Colour :=
  (spriteAttr d vram i).extractLsb' 0 4

/-- `X' = X - (EC ? P_EC_SHIFT : 0)`, the column of the leftmost displayed pixel (R158). -/
def spriteLeft (p : Params) (d : Fields) (vram : Memory) (i : Fin 32) : Int :=
  let x := memRead vram (attrAddr d i 1)
  let shift := if (spriteAttr d vram i).getLsbD 7 then p.ecShift else 0
  (x.toNat : Int) - (shift : Int)

/-- The source row of a displayed row, `r >> MAG` (R157). -/
def sourceRow (d : Fields) (row : Nat) : Nat :=
  row >>> d.mag.toNat

/-- `bits16 = (L << 8) | R`; bit `15 - c` is source column c (R159). -/
def spriteBits (d : Fields) (vram : Memory) (i : Fin 32) (srow : Nat) : BitVec 16 :=
  let name := (memRead vram (attrAddr d i 2)).toNat
  let left := if d.size16 then memRead vram (spAddrL d name srow)
              else memRead vram (spAddr d name srow)
  let right := if d.size16 then memRead vram (spAddrR d name srow) else 0x00#8
  (left.setWidth 16 <<< 8) ||| right.setWidth 16

/-- What the pixel loop of a line changes: `cover`, `scol`, and whether `accC` was set on the
line (R161 to R164). -/
structure Paint where
  cover : Vector Bool 256
  scol : Vector Colour 256
  hit : Bool
  deriving DecidableEq, Repr

/-- Nothing painted (R152). -/
def Paint.start : Paint where
  cover := LineState.start.cover
  scol := LineState.start.scol
  hit := false

/-- `covered(i, sx)` for a sprite of colour `colour` (R162 to R165). -/
def coverPixel (p : Params) (colour : Colour) (sx : Fin 256) (b : Paint) : Paint :=
  let isOpaque : Bool := decide (colour ≠ 0#4)
  let collides : Bool := isOpaque || p.transparentCollides
  { cover := if collides then b.cover.set sx true else b.cover
    hit := b.hit || (collides && b.cover[sx])
    scol := if isOpaque && decide (b.scol[sx] = 0#4) then b.scol.set sx colour else b.scol }

/-- The source bit of displayed column `px`: source column `c = px >> MAG` (R161). -/
def sourceBit (d : Fields) (bits : BitVec 16) (px : Nat) : Bool :=
  bits.getLsbD (15 - (px >>> d.mag.toNat))

/-- One turn of the pixel loop (R161): clipped off screen (R170), skipped for a 0 bit, covered
for a 1 bit. -/
def drawPixel (p : Params) (d : Fields) (left : Int) (bits : BitVec 16) (colour : Colour)
    (b : Paint) (px : Nat) : Paint :=
  let sx := left + (px : Int)
  if h : 0 ≤ sx ∧ sx ≤ 255 then
    if sourceBit d bits px then coverPixel p colour ⟨sx.toNat, by omega⟩ b else b
  else b

/-- One active sprite drawn on the line: `px` in `0 .. E-1` (R161). -/
def drawSprite (p : Params) (d : Fields) (vram : Memory) (b : Paint) (a : ActiveSprite) : Paint :=
  let bits := spriteBits d vram a.index (sourceRow d a.row)
  (List.range d.extent).foldl
    (drawPixel p d (spriteLeft p d vram a.index) bits (spriteColour d vram a.index)) b

/-- The active sprites drawn in increasing index order (R161). -/
def drawActive (p : Params) (d : Fields) (vram : Memory) (active : List ActiveSprite) : Paint :=
  active.foldl (drawSprite p d vram) Paint.start

/-! ## The whole line -/

/-- `spriteLine(y)`: the line's sprite state and the accumulators after it (R167). -/
def spriteLine (p : Params) (d : Fields) (vram : Memory) (y : Nat) (acc : FrameAcc) :
    LineState × FrameAcc :=
  let scan := scanLine d vram y
  let paint := drawActive p d vram scan.1
  ({ active := scan.1, cover := paint.cover, scol := paint.scol },
    latchCollision (latchOverflow acc scan.2) paint.hit)

/-- The engine runs when the display is enabled and the mode is not Text (R151). -/
def engineRuns (d : Fields) : Bool :=
  d.blankN && decide (d.mode ≠ .tx)

/-- The sprite side of a scanline: `spriteLine(y)`, or nothing at all when the engine does not
run (R151, R187). -/
def lineSprites (p : Params) (d : Fields) (vram : Memory) (y : Nat) (acc : FrameAcc) :
    LineState × FrameAcc :=
  if engineRuns d then spriteLine p d vram y acc else (LineState.start, acc)

end Sys2Proof.Machine
end

