-- ==== Sys2Proof/Machine/Compositor.lean ====
section
/-! DEFINITION. The palette ROM and the layer compositor (45_palette_compositor.md), and the frame
they make (46_host_interface.md R187). -/

namespace Sys2Proof.Machine

/-- Palette lookup, `rgb(i) <- P_PALETTE[i]` (R171). -/
def paletteRgb (p : Params) (i : Colour) : Rgb :=
  p.palette[i.toNat]

/-- `idx(x, y)`: sprite over background over backdrop (R177). -/
def compose (sprite bg backdrop : Colour) : Colour :=
  if sprite ≠ 0#4 then sprite
  else if bg ≠ 0#4 then bg
  else backdrop

/-- The colour index of a pixel, given the sprite colours of its scanline (R177). -/
def pixelIndex (p : Params) (d : Fields) (vram : Memory) (scol : Vector Colour 256)
    (x : Fin 256) (y : Fin 192) : Colour :=
  compose scol[x] (background p d vram x.val y.val) d.bd

/-- The pixel itself (R179). -/
def pixelAt (p : Params) (d : Fields) (vram : Memory) (scol : Vector Colour 256)
    (x : Fin 256) (y : Fin 192) : Rgb :=
  paletteRgb p (pixelIndex p d vram scol x y)

/-- The 256 pixels of a scanline, left to right (R180). -/
def frameRow (p : Params) (d : Fields) (vram : Memory) (scol : Vector Colour 256)
    (y : Fin 192) : List Rgb :=
  (List.finRange 256).map fun x => pixelAt p d vram scol x y

/-- The scanlines still to make, with the accumulators so far: their pixels and the accumulators
at the end (46_host_interface.md R187). -/
def renderLines (p : Params) (d : Fields) (vram : Memory) :
    List (Fin 192) → FrameAcc → List Rgb × FrameAcc
  | [], acc => ([], acc)
  | y :: ys, acc =>
    let line := lineSprites p d vram y.val acc
    let rest := renderLines p d vram ys line.2
    (frameRow p d vram line.1.scol y ++ rest.1, rest.2)

/-- What a RENDER returns with these pixels and accumulators (46_host_interface.md R187). -/
def finishPicture (d : Fields) (frame : List Rgb) (acc : FrameAcc) : Picture where
  frame := frame
  status := statusByte acc
  int := intOutput (statusByte acc) d.ie

/-- The whole picture of given fields: scanlines 0, 1, ..., 191 in order, the accumulators
starting at false / 0 (46_host_interface.md R187). -/
def renderFields (p : Params) (d : Fields) (vram : Memory) : Picture :=
  let out := renderLines p d vram (List.finRange 192) FrameAcc.start
  finishPicture d out.1 out.2

/-- The picture of a register bank and a VRAM: a function of these and the parameters alone
(46_host_interface.md R188). -/
def render (p : Params) (regs : Vector Byte 8) (vram : Memory) : Picture :=
  renderFields p (decodeRegs p regs) vram

end Sys2Proof.Machine
end

