-- ==== Sys2Proof/Machine/Modes.lean ====
section
/-! DEFINITION. The meanings of the five mode rows (30_encoding.md R70, R71; 43_background_renderer.md
R138 to R146): the RENDER in progress makes the pixel at its raster position by the row's mode and
moves on (10_state.md R25; log 6). -/

namespace Sys2Proof.Machine

/-- At the first pixel of a scanline the sprite engine runs for it (44_sprite_engine.md R151,
R152; log 17); at any other pixel the line's sprite state stands. -/
def enterPixel (p : Params) (d : Fields) (vram : Memory) (r : Raster) : Raster :=
  if r.x = 0 then
    let line := lineSprites p d vram r.y.val r.acc
    { r with line := line.1, acc := line.2 }
  else r

/-- The pixel at the raster position joins the frame (45_palette_compositor.md R179, R180). -/
def emitPixel (p : Params) (d : Fields) (vram : Memory) (r : Raster) : Raster :=
  { r with pixels := r.pixels ++ [pixelAt p d vram r.line.scol r.x r.y] }

/-- The next raster position: the next column, else the first column of the next scanline, with
its sprite state empty (10_state.md R25, R26); none after (191, 255). -/
def nextPosition (r : Raster) : Option Raster :=
  if hx : r.x.val + 1 < 256 then some { r with x := ⟨r.x.val + 1, hx⟩ }
  else if hy : r.y.val + 1 < 192 then
    some { r with y := ⟨r.y.val + 1, hy⟩, x := 0, line := LineState.start }
  else none

/-- The RENDER goes on at the next raster position, or returns after the last one (R187). -/
def advanceRaster (d : Fields) (r : Raster) (s : State) : State :=
  match nextPosition r with
  | some r' => s.setRaster (some r')
  | none => (s.setRaster none).respond (pictureReply (finishPicture d r.pixels r.acc))

/-- The raster after the pixel at its position is made with fields `d`. -/
def madePixel (d : Fields) (s : State) (r : Raster) : Raster :=
  emitPixel s.params d s.vram (enterPixel s.params d s.vram r)

/-- The pixel at the raster position, made in mode `m`. -/
def rasterPixel (m : Mode) (s : State) (r : Raster) : State :=
  advanceRaster (decodeAs m s.regs) (madePixel (decodeAs m s.regs) s r) s

/-- A mode row is performed only inside a RENDER (10_state.md R25; log 8). -/
def rasterStep (m : Mode) (s : State) : Host.Outcome State Fault Refusal :=
  match s.raster with
  | some r => .next (rasterPixel m s r)
  | none => .refused .noRenderInProgress

/-- MODE.G1 (R139). -/
def execModeG1 (s : State) : Host.Outcome State Fault Refusal :=
  rasterStep .g1 s

/-- MODE.G1_UNDOC_M1M2: the mode `P_UNDOC_MODE` gives M1 and M2, by default G1 (30_encoding.md
R70; log 10). -/
def execModeG1UndocM1M2 (s : State) : Host.Outcome State Fault Refusal :=
  rasterStep s.params.undoc.m1m2 s

/-- MODE.G2 (R140): M3 is set; with M1 or M2 set beside it the combination is undocumented and
`P_UNDOC_MODE` decides, by default G2 (30_encoding.md R70; log 10). -/
def execModeG2 (s : State) : Host.Outcome State Fault Refusal :=
  rasterStep (selectMode s.params.undoc (regM1 s.regs) (regM2 s.regs) true) s

/-- MODE.MC (R141). -/
def execModeMC (s : State) : Host.Outcome State Fault Refusal :=
  rasterStep .mc s

/-- MODE.TX (R142 to R146). -/
def execModeTX (s : State) : Host.Outcome State Fault Refusal :=
  rasterStep .tx s

end Sys2Proof.Machine
end

