-- ==== Sys2Proof/Machine/Operands.lean ====
section
/-! DEFINITION. The operand forms of the transactions (46_host_interface.md R181 to R185): the
payload of SETREGS as a register bank, the range check of SETVRAM, the address of READVRAM. -/

namespace Sys2Proof.Machine

/-- The register bank a SETREGS payload gives: exactly 8 bytes, `REG[n] <- b[n]` (R181). -/
def payloadRegs (payload : List Byte) : Option (Vector Byte 8) :=
  if h : payload.length = 8 then some ⟨payload.toArray, by simpa using h⟩ else none

/-- SETVRAM is out of range: `offset > 16383` or `offset + len > 16384` (R183). -/
def vramOutOfRange (offset : Half) (payload : List Byte) : Bool :=
  decide (16383 < offset.toNat) || decide (vramSize < offset.toNat + payload.length)

/-- The byte READVRAM returns: `VRAM[addr mod 16384]` (R185). -/
def readOperand (vram : Memory) (addr : Half) : Byte :=
  memRead vram addr.toNat

end Sys2Proof.Machine
end

