-- ==== Sys2Proof/Machine/Transactions.lean ====
section
/-! DEFINITION. The meanings of the four host transactions (46_host_interface.md). Each is
performed whole, and only when no RENDER is in progress (20_memory.md R55; log 7). -/

namespace Sys2Proof.Machine

/-- SETREGS (R181): all eight registers at once, or InvalidLength with nothing changed. -/
def execSetregs (payload : List Byte) (s : State) : Host.Outcome State Fault Refusal :=
  perform s <|
    match payloadRegs payload with
    | some regs => (s.setRegs regs).succeed
    | none => s.raise .invalidLength

/-- SETVRAM (R183): every payload byte at consecutive addresses, or OutOfRange with nothing
changed. -/
def execSetvram (offset : Half) (payload : List Byte) (s : State) :
    Host.Outcome State Fault Refusal :=
  perform s <|
    if vramOutOfRange offset payload then s.raise .outOfRange
    else (s.writeVram offset.toNat payload).succeed

/-- READVRAM (R185): the byte at `addr mod 16384`; no state changes. -/
def execReadvram (addr : Half) (s : State) : Host.Outcome State Fault Refusal :=
  perform s (s.respond (dataReply (readOperand s.vram addr)))

/-- RENDER (R187, R189): the frame, the status byte and INT; no state changes. -/
def execRender (s : State) : Host.Outcome State Fault Refusal :=
  perform s (s.respond (pictureReply (render s.params s.regs s.vram)))

end Sys2Proof.Machine
end

