-- ==== Sys2Proof/Machine/Dispatch.lean ====
section
/-! DEFINITION. One arm per instruction. -/

namespace Sys2Proof.Machine

/-- What performing an instruction does. -/
def exec (i : Instr) (s : State) : Host.Outcome State Fault Refusal :=
  match i with
  | .setregs payload => Sys2Proof.Machine.execSetregs payload s
  | .setvram offset payload => Sys2Proof.Machine.execSetvram offset payload s
  | .readvram addr => Sys2Proof.Machine.execReadvram addr s
  | .render => Sys2Proof.Machine.execRender s
  | .modeG1 => Sys2Proof.Machine.execModeG1 s
  | .modeG1UndocM1M2 => Sys2Proof.Machine.execModeG1UndocM1M2 s
  | .modeG2 => Sys2Proof.Machine.execModeG2 s
  | .modeMC => Sys2Proof.Machine.execModeMC s
  | .modeTX => Sys2Proof.Machine.execModeTX s

end Sys2Proof.Machine
end

