-- ==== Sys2Proof/WellFormed.lean ====
section
/-! DEFINITION. Which instructions can be written down: the payload count must fit the 16-bit
LEN field (30_encoding.md R81). A wrong count within the field is well-formed (R84). -/

namespace Sys2Proof

/-- A payload whose length fits LEN, 0..65535 (R81). -/
def payloadFits (payload : List Byte) : Bool :=
  decide (payload.length < 65536)

/-- The instruction has an encoding. -/
def Instr.wf : Instr → Bool
  | .setregs payload => payloadFits payload
  | .setvram _ payload => payloadFits payload
  | .readvram _ => true
  | .render => true
  | .modeG1 => true
  | .modeG1UndocM1M2 => true
  | .modeG2 => true
  | .modeMC => true
  | .modeTX => true

end Sys2Proof
end

