-- ==== Sys2Proof/Decode.lean ====
section
/-! DEFINITION. Decoding and encoding: host transactions as byte strings (30_encoding.md R80 to
R84) and mode rows as the 16-bit mode key (R70, R71). -/

namespace Sys2Proof

/-- Why a byte string spells no transaction. -/
inductive DecodeError where
  /-- A header byte with bits 7:2 not all 0 (R83). -/
  | reservedHeader (header : Byte)
  /-- The bytes end before the transaction does (R82; log 3). -/
  | incomplete
  deriving DecidableEq, Repr

/-! ## Byte order (R81) -/

/-- A 16-bit field from its two bytes, least significant first (R81). -/
def half (low high : Byte) : Half :=
  (high.setWidth 16 <<< 8) ||| low.setWidth 16

/-- The low byte of a 16-bit field. -/
def lowByte (v : Half) : Byte :=
  v.extractLsb' 0 8

/-- The high byte of a 16-bit field. -/
def highByte (v : Half) : Byte :=
  v.extractLsb' 8 8

/-- A 16-bit field as bytes, least significant first (R81). -/
def halfBytes (v : Half) : List Byte :=
  [lowByte v, highByte v]

/-- The first `n` items and the rest, if there are that many. -/
def takeExactly {α : Type} : Nat → List α → Option (List α × List α)
  | 0, rest => some ([], rest)
  | _ + 1, [] => none
  | n + 1, b :: rest =>
    match takeExactly n rest with
    | some (taken, rest') => some (b :: taken, rest')
    | none => none

/-! ## Host transactions -/

/-- Header bytes (R80). -/
def hdrSetregs : Byte := 0x00#8
/-- Header of SETVRAM (R80). -/
def hdrSetvram : Byte := 0x01#8
/-- Header of READVRAM (R80). -/
def hdrReadvram : Byte := 0x02#8
/-- Header of RENDER (R80). -/
def hdrRender : Byte := 0x03#8

/-- The operands of SETREGS: LEN, then LEN payload bytes (R80, R82). -/
def decodeSetregs : List Byte → Except DecodeError (Instr × List Byte)
  | l0 :: l1 :: rest =>
    match takeExactly (half l0 l1).toNat rest with
    | some (payload, rest') => .ok (.setregs payload, rest')
    | none => .error .incomplete
  | _ => .error .incomplete

/-- The operands of SETVRAM: OFFSET, LEN, then LEN payload bytes (R80, R82). -/
def decodeSetvram : List Byte → Except DecodeError (Instr × List Byte)
  | o0 :: o1 :: l0 :: l1 :: rest =>
    match takeExactly (half l0 l1).toNat rest with
    | some (payload, rest') => .ok (.setvram (half o0 o1) payload, rest')
    | none => .error .incomplete
  | _ => .error .incomplete

/-- The operand of READVRAM: ADDR (R80). -/
def decodeReadvram : List Byte → Except DecodeError (Instr × List Byte)
  | a0 :: a1 :: rest => .ok (.readvram (half a0 a1), rest)
  | _ => .error .incomplete

/-- The transaction at the head of a byte string, and the bytes after it (R80 to R83). -/
def decode : List Byte → Except DecodeError (Instr × List Byte)
  | [] => .error .incomplete
  | header :: rest =>
    if header = hdrSetregs then decodeSetregs rest
    else if header = hdrSetvram then decodeSetvram rest
    else if header = hdrReadvram then decodeReadvram rest
    else if header = hdrRender then .ok (.render, rest)
    else .error (.reservedHeader header)

/-! ## The mode key -/

/-- Bit position of M3 in the mode key (R71). -/
def keyM3 : Nat := 1
/-- Bit position of M2 in the mode key (R71). -/
def keyM2 : Nat := 11
/-- Bit position of M1 in the mode key (R71). -/
def keyM1 : Nat := 12

/-- The mode row a key matches; every key matches exactly one (R70, R71). -/
def decodeKey (key : Half) : Instr :=
  if key.getLsbD keyM3 then .modeG2
  else match key.getLsbD keyM2, key.getLsbD keyM1 with
    | false, false => .modeG1
    | false, true => .modeTX
    | true, false => .modeMC
    | true, true => .modeG1UndocM1M2

/-! ## Encoding -/

/-- How an instruction is spelled: a transaction as a byte string (R80), a mode row as a mode
key (R71). -/
inductive Code where
  | bytes (stream : List Byte)
  | key (k : Half)
  deriving DecidableEq, Repr

/-- LEN and the payload bytes (R80). A payload that does not fit LEN is not well-formed; its LEN
comes out modulo 65536 (log 23). -/
def payloadBytes (payload : List Byte) : List Byte :=
  halfBytes (BitVec.ofNat 16 payload.length) ++ payload

/-- The spelling of an instruction. A mode row's don't-care bits are written 0, as in the
opcode table's match words (log 16). -/
def encode : Instr → Code
  | .setregs payload => .bytes (hdrSetregs :: payloadBytes payload)
  | .setvram offset payload => .bytes (hdrSetvram :: (halfBytes offset ++ payloadBytes payload))
  | .readvram addr => .bytes (hdrReadvram :: halfBytes addr)
  | .render => .bytes [hdrRender]
  | .modeG1 => .key 0x0000#16
  | .modeG1UndocM1M2 => .key 0x1800#16
  | .modeG2 => .key 0x0002#16
  | .modeMC => .key 0x0800#16
  | .modeTX => .key 0x1000#16

/-- The bytes of a spelling; a key's are REG[0] and REG[1] (R71). -/
def Code.toBytes : Code → List Byte
  | .bytes stream => stream
  | .key k => halfBytes k

/-- The one instruction a spelling stands for, with nothing left over. -/
def decodeCode : Code → Option Instr
  | .bytes stream =>
    match decode stream with
    | .ok (i, []) => some i
    | _ => none
  | .key k => some (decodeKey k)

/-- The byte string of a list of transactions, in the order the host issues them (R80, R55). -/
def encodeAll : List Instr → List Byte
  | [] => []
  | i :: is => (encode i).toBytes ++ encodeAll is

/-- The length in bytes of an instruction's spelling (R82; a mode key is two bytes). -/
def Instr.length : Instr → Nat
  | .setregs payload => 3 + payload.length
  | .setvram _ payload => 5 + payload.length
  | .readvram _ => 3
  | .render => 1
  | .modeG1 => 2
  | .modeG1UndocM1M2 => 2
  | .modeG2 => 2
  | .modeMC => 2
  | .modeTX => 2

/-! ## The opcode table's own numbering -/

/-- `n` bytes of a word, the least significant first. -/
def wordBytes : Nat → Nat → List Byte
  | 0, _ => []
  | n + 1, w => BitVec.ofNat 8 w :: wordBytes n (w / 256)

/-- The table numbers the mode rows' keys in 16 bits and the transactions' headers in 8
(opcode_table.json; log 15). -/
def isKeyWidth (nbits : Nat) : Bool :=
  nbits == 16

/-- The longest operand part of an instruction: OFFSET, LEN and 65535 payload bytes (R82). -/
def longestOperands : Nat := 4 + 65535

/-- The bytes of a table word, followed by zeros up to the longest instruction. -/
def paddedTableBytes (nbits w : Nat) : List Byte :=
  wordBytes ((nbits + 7) / 8) w ++ List.replicate longestOperands 0x00#8

/-- The instruction the decoder reads from a table row's word. -/
def decodeTableWord (nbits w : Nat) : Option Instr :=
  if isKeyWidth nbits then some (decodeKey (BitVec.ofNat 16 w))
  else match decode (paddedTableBytes nbits w) with
    | .ok (i, _) => some i
    | .error _ => none

/-- The bytes of exactly the instruction a table word spells; the word's own bytes where it
spells none. -/
def tableWordBytes (nbits w : Nat) : List Byte :=
  match decodeTableWord nbits w with
  | some i => (encode i).toBytes
  | none => wordBytes ((nbits + 7) / 8) w

end Sys2Proof
end

