-- ==== Sys2Proof/Machine/Fetch.lean ====
section
/-! DEFINITION. What the block performs next: the mode row of a RENDER in progress, else the next
transaction the host has issued (20_memory.md R55; log 1, log 6). -/

namespace Sys2Proof.Machine

/-- What there is to do. -/
inductive Fetched where
  /-- No transaction has been issued (60_exceptions.md R211; log 2). -/
  | idle
  /-- An instruction, and the state it is performed in. -/
  | perform (i : Instr) (s : State)
  /-- The issued bytes spell no transaction. -/
  | malformed (r : Refusal)
  deriving DecidableEq, Repr

/-- The refusal of bytes that spell no transaction (30_encoding.md R83; log 3, log 4). -/
def decodeRefusal : DecodeError → Refusal
  | .reservedHeader header => .reservedHeader header
  | .incomplete => .incompleteTransaction

/-- The state with the bytes of the fetched transaction taken off the stream (log 1). -/
def State.consume (rest : List Byte) (s : State) : State :=
  { s with input := rest }

/-- The next transaction at the head of the stream. -/
def fetchTransaction (s : State) : Fetched :=
  match s.input with
  | [] => .idle
  | header :: operands =>
    match decode (header :: operands) with
    | .ok (i, rest) => .perform i (s.consume rest)
    | .error e => .malformed (decodeRefusal e)

/-- A RENDER in progress goes on before any further transaction is taken (R55). -/
def fetch (s : State) : Fetched :=
  match s.raster with
  | some _ => .perform (decodeKey (modeKey s.regs)) s
  | none => fetchTransaction s

/-- `s` about to perform the mode row of a key: REG[0] and REG[1] hold the key's bytes and a
RENDER is in progress (log 15). -/
def State.withKey (key : Half) (s : State) : State :=
  { s with
    regs := (s.regs.set 0 (lowByte key)).set 1 (highByte key)
    raster := some (s.raster.getD Raster.start) }

/-- `s` about to perform the transaction of the given bytes: no RENDER is in progress and the
bytes stand at the head of the stream (log 15). -/
def State.withBytes (bytes : List Byte) (s : State) : State :=
  { s with
    raster := none
    input := bytes ++ s.input }

end Sys2Proof.Machine
end

