-- ==== Sys2Proof/Machine/Step.lean ====
section
/-! DEFINITION. One step: the next instruction, performed whole. -/

namespace Sys2Proof.Machine

/-- One step of the block. With nothing issued it holds its state (60_exceptions.md R211). -/
def step (s : State) : Host.Outcome State Fault Refusal :=
  match fetch s with
  | .idle => .next s
  | .perform i s' => exec i s'
  | .malformed r => .refused r

/-- `s` with a table row's instruction placed where the next step fetches it (log 15). -/
def State.withFetchWord (s : State) (nbits w : Nat) : State :=
  if isKeyWidth nbits then s.withKey (BitVec.ofNat 16 w)
  else s.withBytes (tableWordBytes nbits w)

end Sys2Proof.Machine
end

