-- ==== Sys2Proof/Machine/Assembler.lean ====
section
/-! DEFINITION. The assembler syntax for transaction sequences (30_encoding.md R85) and the
pseudo-transactions (R86): text to lines, lines to transactions, transactions to bytes. White
space and the separation of lines are the model's reading (log 22). -/

namespace Sys2Proof.Machine

/-- One line of assembler (R85, R86). -/
inductive AsmLine where
  | setregs (items : List Byte)
  | setvram (offset : Half) (items : List Byte)
  | readvram (addr : Half)
  | render
  /-- `FILLVRAM offset, n, v`. -/
  | fillvram (offset : Half) (n : Nat) (v : Byte)
  /-- `LOADDUMP d`: VRAM bytes, then register bytes (20_memory.md R53). -/
  | loaddump (dump : List Byte)
  deriving DecidableEq, Repr

/-- The transactions of a line (R86). R53 and R86 give LOADDUMP for a dump of 16392 bytes only.
DESIGN CHOICE, safe (log 22): a dump of any other length expands alike, its first 16384 bytes (or
all it has) into SETVRAM and the rest into SETREGS, which then fails with InvalidLength. -/
def AsmLine.expand : AsmLine → List Instr
  | .setregs items => [.setregs items]
  | .setvram offset items => [.setvram offset items]
  | .readvram addr => [.readvram addr]
  | .render => [.render]
  | .fillvram offset n v => [.setvram offset (List.replicate n v)]
  | .loaddump dump => [.setvram 0x0000#16 (dump.take vramSize), .setregs (dump.drop vramSize)]

/-- The transactions of a program, in order. -/
def expandAll : List AsmLine → List Instr
  | [] => []
  | l :: ls => l.expand ++ expandAll ls

/-- The byte string of a program (R80, R85). The spec gives no bytes to a line with more than 65535
payload bytes, which LEN cannot hold (R81). DESIGN CHOICE, unsafe for such a line (log 23): LEN is
written modulo 65536 and every payload byte after it, so the bytes past that LEN decode as further
transactions. -/
def assemble (lines : List AsmLine) : List Byte :=
  encodeAll (expandAll lines)

/-! ## Text -/

/-- A word of a line of text: a run of letters and digits, or a mark. -/
inductive Token where
  | word (chars : List Char)
  | openList
  | closeList
  | comma
  deriving DecidableEq, Repr

/-- A finished word joins the tokens after it; `pending` holds its characters in reverse. -/
def flushWord (pending : List Char) (rest : List Token) : List Token :=
  match pending with
  | [] => rest
  | c :: cs => .word (c :: cs).reverse :: rest

/-- The tokens of a line; a semicolon begins a comment (R85). -/
def tokenize : List Char → List Char → Option (List Token)
  | pending, [] => some (flushWord pending [])
  | pending, c :: cs =>
    if c = ';' then some (flushWord pending [])
    else if c = ' ' || c = '\t' then (tokenize [] cs).map (flushWord pending)
    else if c = '[' then (tokenize [] cs).map fun ts => flushWord pending (.openList :: ts)
    else if c = ']' then (tokenize [] cs).map fun ts => flushWord pending (.closeList :: ts)
    else if c = ',' then (tokenize [] cs).map fun ts => flushWord pending (.comma :: ts)
    else if c.isAlphanum then tokenize (c :: pending) cs
    else none

/-- The value of a digit character, hexadecimal digits included. -/
def digitValue (c : Char) : Option Nat :=
  if '0'.toNat ≤ c.toNat ∧ c.toNat ≤ '9'.toNat then some (c.toNat - '0'.toNat)
  else if 'a'.toNat ≤ c.toNat ∧ c.toNat ≤ 'f'.toNat then some (c.toNat - 'a'.toNat + 10)
  else if 'A'.toNat ≤ c.toNat ∧ c.toNat ≤ 'F'.toNat then some (c.toNat - 'A'.toNat + 10)
  else none

/-- The value of digits in a radix, with the value read so far. -/
def digitsValue (radix : Nat) : Nat → List Char → Option Nat
  | value, [] => some value
  | value, c :: cs =>
    match digitValue c with
    | some v => if v < radix then digitsValue radix (value * radix + v) cs else none
    | none => none

/-- A number: hexadecimal with `0x`, or decimal (R85). -/
def parseNumber (chars : List Char) : Option Nat :=
  match chars with
  | [] => none
  | '0' :: 'x' :: [] => none
  | '0' :: 'x' :: c :: cs => digitsValue 16 0 (c :: cs)
  | c :: cs => digitsValue 10 0 (c :: cs)

/-- A number that fits `w` bits. -/
def parseBits (w : Nat) (chars : List Char) : Option (BitVec w) :=
  match parseNumber chars with
  | some n => if n < 2 ^ w then some (BitVec.ofNat w n) else none
  | none => none

/-- The items of a byte list after its first comma or opening bracket, and that nothing follows
the closing bracket. -/
def parseItems : List Token → Option (List Byte)
  | .word w :: .closeList :: [] => (parseBits 8 w).map fun b => [b]
  | .word w :: .comma :: rest =>
    match parseBits 8 w, parseItems rest with
    | some b, some bs => some (b :: bs)
    | _, _ => none
  | _ => none

/-- A byte list `[b0, b1, ...]` that ends the line (R85). -/
def parseList : List Token → Option (List Byte)
  | .openList :: .closeList :: [] => some []
  | .openList :: rest => parseItems rest
  | _ => none

/-- The line a list of tokens spells (R85, R86). -/
def parseTokens : List Token → Option AsmLine
  | [.word w] => if w = "RENDER".toList then some .render else none
  | [.word w, .word a] =>
    if w = "READVRAM".toList then (parseBits 16 a).map .readvram else none
  | [.word w, .word o, .comma, .word n, .comma, .word v] =>
    if w = "FILLVRAM".toList then
      match parseBits 16 o, parseNumber n, parseBits 8 v with
      | some offset, some count, some value => some (.fillvram offset count value)
      | _, _, _ => none
    else none
  | .word w :: .word o :: .comma :: items =>
    if w = "SETVRAM".toList then
      match parseBits 16 o, parseList items with
      | some offset, some bytes => some (.setvram offset bytes)
      | _, _ => none
    else none
  | .word w :: items =>
    if w = "SETREGS".toList then (parseList items).map .setregs
    else if w = "LOADDUMP".toList then (parseList items).map .loaddump
    else none
  | _ => none

/-- The line a line of text spells. -/
def parseLine (text : List Char) : Option AsmLine :=
  match tokenize [] text with
  | some tokens => parseTokens tokens
  | none => none

/-- The lines of a text, one transaction a line (R85); lines with no token are passed over. -/
def parseLines : List (List Char) → Option (List AsmLine)
  | [] => some []
  | text :: texts =>
    match tokenize [] text, parseLines texts with
    | some [], some rest => some rest
    | some tokens, some rest => (parseTokens tokens).map (· :: rest)
    | _, _ => none

end Sys2Proof.Machine
end

