-- ==== Sys2Proof/Safety.lean ====
section
/-! DEFINITION. What the claims are stated in: the invariant of the machine, the words for what a
RENDER shows, and sequences of transactions. -/

namespace Sys2Proof

/-- The five mode rows. -/
def Instr.isModeRow : Instr → Bool
  | .setregs _ => false
  | .setvram _ _ => false
  | .readvram _ => false
  | .render => false
  | .modeG1 => true
  | .modeG1UndocM1M2 => true
  | .modeG2 => true
  | .modeMC => true
  | .modeTX => true

end Sys2Proof

namespace Sys2Proof.Machine

/-! ## The invariant -/

/-- The `active` list of a scanline: at most 4 sprites in strictly increasing index order
(10_state.md R26). -/
def activeOk (active : List ActiveSprite) : Prop :=
  active.length ≤ 4 ∧ active.Pairwise fun a b => a.index < b.index

/-- The accumulators after scanlines `0 .. n - 1` (10_state.md R27; 46_host_interface.md R187). -/
def accAfter (p : Params) (d : Fields) (vram : Memory) (n : Nat) : FrameAcc :=
  ((List.finRange 192).take n).foldl (fun a y => (lineSprites p d vram y.val a).2) FrameAcc.start

/-- A RENDER in progress is one that REG, VRAM and the parameters make: it has made exactly the
pixels before its raster position (10_state.md R25), its line's sprite state and its accumulators
are those the sprite engine leaves there (R26, R27), the line keeps the limit of four, and there is
no fifth-sprite number without an overflow. -/
structure Raster.Inv (p : Params) (regs : Vector Byte 8) (vram : Memory) (r : Raster) : Prop where
  count : r.pixels.length = r.y.val * 256 + r.x.val
  pixels : r.pixels = (render p regs vram).frame.take (r.y.val * 256 + r.x.val)
  line : r.line = if r.x = 0 then LineState.start
    else (lineSprites p (decodeRegs p regs) vram r.y.val FrameAcc.start).1
  acc : r.acc = accAfter p (decodeRegs p regs) vram (if r.x = 0 then r.y.val else r.y.val + 1)
  active : activeOk r.line.active
  fsn : r.acc.acc5S = false → r.acc.accFSN = 0#5

/-- A returned picture has 49152 pixels (45_palette_compositor.md R180) and its F flag is set
(10_state.md R21). -/
def Picture.Inv (p : Picture) : Prop :=
  p.frame.length = 49152 ∧ p.status.getLsbD 7 = true

/-- VRAM is in canonical form, a RENDER in progress is one of the state's own REG, VRAM and
parameters, a returned picture is whole. -/
structure State.Inv (s : State) : Prop where
  vram : Memory.wf s.vram = true
  raster : ∀ r, s.raster = some r → r.Inv s.params s.regs s.vram
  reply : ∀ reply picture, s.reply = some reply → reply.picture = some picture → picture.Inv

/-! ## What a RENDER shows -/

/-- The opcode table's mode rows: match, mask, instruction (30_encoding.md R71). -/
def modeRows : List (Half × Half × Instr) :=
  [(0x0000#16, 0x1802#16, .modeG1),
   (0x1800#16, 0x1802#16, .modeG1UndocM1M2),
   (0x0002#16, 0x0002#16, .modeG2),
   (0x0800#16, 0x1802#16, .modeMC),
   (0x1000#16, 0x1802#16, .modeTX)]

/-- The pixels of the RENDER a state is in, or of the one that has just returned. -/
def pixelsSoFar (s : State) : List Rgb :=
  match s.raster with
  | some r => r.pixels
  | none =>
    match s.reply with
    | some reply =>
      match reply.picture with
      | some picture => picture.frame
      | none => []
    | none => []

/-- The sprite colour of each column of scanline `y` (44_sprite_engine.md R166). -/
def spriteLayer (p : Params) (d : Fields) (vram : Memory) (y : Nat) : Vector Colour 256 :=
  (lineSprites p d vram y FrameAcc.start).1.scol

/-- The sprite colour at the raster position: of the line being entered, or of the line under
way. -/
def spriteAtRaster (p : Params) (d : Fields) (vram : Memory) (r : Raster) : Colour :=
  if r.x = 0 then (spriteLayer p d vram r.y.val)[r.x] else r.line.scol[r.x]

/-- Sprite `a` of a line covers column `sx`: the column is inside its displayed extent and its
source bit is 1 (44_sprite_engine.md R161, R162). -/
def spriteCovers (p : Params) (d : Fields) (vram : Memory) (a : ActiveSprite) (sx : Fin 256) :
    Bool :=
  let px : Int := (sx.val : Int) - spriteLeft p d vram a.index
  decide (0 ≤ px) && decide (px < (d.extent : Int)) &&
    sourceBit d (spriteBits d vram a.index (sourceRow d a.row)) px.toNat

/-- The sprite has an opaque colour (44_sprite_engine.md R165). -/
def spriteOpaque (d : Fields) (vram : Memory) (a : ActiveSprite) : Bool :=
  decide (spriteColour d vram a.index ≠ 0#4)

/-- The sprite takes part in collision (44_sprite_engine.md R162, R165). -/
def spriteCollides (p : Params) (d : Fields) (vram : Memory) (a : ActiveSprite) : Bool :=
  spriteOpaque d vram a || p.transparentCollides

/-- The sprites of scanline `y` in vertical range and before the sentinel, in index order,
without the limit of four (44_sprite_engine.md R153, R155). -/
def spritesInRange (d : Fields) (vram : Memory) (y : Nat) : List (Fin 32) :=
  ((List.finRange 32).takeWhile fun i => decide (spriteYByte d vram i ≠ sentinelY)).filter
    fun i => rowInRange d.extent (spriteRow y (spriteYByte d vram i))

/-- The register bits that can reach an output: all but the reserved ones (10_state.md R18, R19),
VR16K (41_register_decoder.md R94) and EXTVID (R95). -/
def usedBits : Vector Byte 8 :=
  #v[0x02#8, 0x7B#8, 0x0F#8, 0xFF#8, 0x07#8, 0x7F#8, 0x07#8, 0xFF#8]

/-! ## Sequences of instructions -/

/-- Instructions performed one after another, stopping where one is refused (20_memory.md R55). -/
def performAll : List Instr → State → Host.Outcome State Fault Refusal
  | [], s => .next s
  | i :: is, s =>
    match exec i s with
    | .next s' => performAll is s'
    | .fault f => .fault f
    | .refused r => .refused r

end Sys2Proof.Machine
end

