-- ==== Sys2Proof/Certificates/Slice0/Obligations.lean ====
section
/-! DEFINITION. The statements for the provers, each a claim about every state or operand unless
its docstring says otherwise. -/

open Sys2Proof Sys2Proof.Machine

/-! ## Encoding -/

/-- 30_encoding.md R80 to R82: decoding the byte string of a well-formed transaction, whatever
bytes follow it, gives that transaction and leaves exactly those bytes. -/
def Obligations.DecodeOfEncodedTransaction : Prop :=
  ∀ (i : Instr) (rest : List Byte), i.wf = true → i.isModeRow = false →
    decode ((encode i).toBytes ++ rest) = .ok (i, rest)

/-- R80, R71: every well-formed instruction, mode rows included, is what its spelling stands
for. -/
def Obligations.DecodeOfEncode : Prop :=
  ∀ i : Instr, i.wf = true → decodeCode (encode i) = some i

/-- R80 to R82, the other direction: bytes that decode are the encoding of a well-formed
transaction followed by the bytes left over. -/
def Obligations.EncodeOfDecode : Prop :=
  ∀ (bytes rest : List Byte) (i : Instr), decode bytes = .ok (i, rest) →
    i.wf = true ∧ i.isModeRow = false ∧ bytes = (encode i).toBytes ++ rest

/-- R71: the decoder of mode keys agrees with the opcode table's match and mask of every mode
row, on every key; in particular every key matches exactly one row. -/
def Obligations.ModeKeyMatchesTable : Prop :=
  ∀ (row : Half × Half × Instr), row ∈ modeRows → ∀ key : Half,
    (key &&& row.2.1 = row.1 ↔ decodeKey key = row.2.2)

/-- R83: a header byte 0x04 .. 0xFF spells no transaction and the step refuses it by name. -/
def Obligations.ReservedHeaderRefused : Prop :=
  ∀ (s : State) (header : Byte) (rest : List Byte), s.raster = none →
    s.input = header :: rest → 4 ≤ header.toNat →
    step s = .refused (.reservedHeader header)

/-- Words written out from 30_encoding.md R80, R81 and R71 decode to what they spell. -/
def Obligations.SampleWordsDecode : Prop :=
  decode [0x00#8, 0x02#8, 0x00#8, 0xAA#8, 0xBB#8] = .ok (.setregs [0xAA#8, 0xBB#8], []) ∧
  decode [0x01#8, 0xFF#8, 0x3F#8, 0x01#8, 0x00#8, 0x55#8] = .ok (.setvram 0x3FFF#16 [0x55#8], []) ∧
  decode [0x02#8, 0xFE#8, 0x7F#8, 0x03#8] = .ok (.readvram 0x7FFE#16, [0x03#8]) ∧
  decode [0x03#8] = .ok (.render, []) ∧
  decodeKey 0xC000#16 = .modeG1 ∧ decodeKey 0xC002#16 = .modeG2 ∧
  decodeKey 0xC800#16 = .modeMC ∧ decodeKey 0xD000#16 = .modeTX ∧
  decodeKey 0xD800#16 = .modeG1UndocM1M2

/-! ## The step -/

/-- When no RENDER is in progress and the issued bytes decode to an instruction, the step is that
instruction performed with its bytes taken off the stream and nothing else (R55; log 1). -/
def Obligations.StepRunsTransaction : Prop :=
  ∀ (s : State) (i : Instr) (rest : List Byte), s.raster = none →
    decode s.input = .ok (i, rest) → step s = exec i { s with input := rest }

/-- While a RENDER is in progress the step performs the mode row its registers' key matches and
takes no byte of the stream (R55, R71; log 6). -/
def Obligations.StepRunsModeRow : Prop :=
  ∀ (s : State) (r : Raster), s.raster = some r →
    step s = exec (decodeKey (modeKey s.regs)) s

/-- With nothing issued and no RENDER in progress the step changes nothing (R211; log 2). -/
def Obligations.StepIdleHolds : Prop :=
  ∀ s : State, s.raster = none → s.input = [] → step s = .next s

/-- Issued bytes that end inside a transaction are refused by name (the model's choice, log 3). -/
def Obligations.IncompleteTransactionRefused : Prop :=
  ∀ (s : State) (i : Instr) (missing : List Byte), i.wf = true → i.isModeRow = false →
    s.raster = none → s.input ≠ [] → missing ≠ [] →
    (encode i).toBytes = s.input ++ missing →
    step s = .refused .incompleteTransaction

/-- R55: issuing the byte strings of well-formed transactions and taking one step for each is
the same as performing the transactions one after another, with nothing left in the stream. The
stream and one step for each transaction are the model's choice (log 1). -/
def Obligations.StreamRunsInOrder : Prop :=
  ∀ (is : List Instr) (s : State), s.raster = none → s.input = [] →
    (∀ i ∈ is, i.wf = true ∧ i.isModeRow = false) →
    ∃ t, performAll is s = .next t ∧
      Host.Core.run Sys2Proof.core is.length (s.issue (encodeAll is)) = .next t

/-! ## SETREGS -/

/-- R181: SETREGS is header 0x00, LEN and LEN bytes. With 8 bytes it completes with OK, register n
holds byte n and nothing else changes; with any other count it completes with InvalidLength and
everything but the reply is as it was. -/
def Obligations.SetregsReplacesBankOrFails : Prop :=
  ∀ (s : State) (payload : List Byte), s.raster = none →
    (payload.length = 8 →
      ∃ t, exec (.setregs payload) s = .next t ∧
        (∀ n : Fin 8, payload[n.val]? = some t.regs[n]) ∧
        t.reply = some { code := .ok, data := none, picture := none } ∧
        t.params = s.params ∧ t.vram = s.vram ∧ t.raster = none ∧ t.input = s.input) ∧
    (payload.length ≠ 8 →
      exec (.setregs payload) s =
        .next { s with reply := some { code := .invalidLength, data := none, picture := none } }) ∧
    (payload.length < 65536 →
      decode (0x00#8 :: BitVec.ofNat 8 payload.length :: BitVec.ofNat 8 (payload.length / 256) ::
        payload) = .ok (.setregs payload, []))

/-- R182, R59: a RENDER right after a successful SETREGS shows the new registers and the same
VRAM. -/
def Obligations.RenderSeesNewRegisters : Prop :=
  ∀ (s : State) (regs : Vector Byte 8), s.raster = none →
    ∃ t, performAll [.setregs regs.toList, .render] s = .next t ∧ t.regs = regs ∧
      t.reply = some { code := .ok, data := none, picture := some (render s.params regs s.vram) }

/-! ## SETVRAM and READVRAM -/

/-- R183, R184: SETVRAM is header 0x01, OFFSET, LEN and LEN bytes. In range it completes with OK:
byte k stands at `offset + k`, every address outside the window reads as before, and nothing else
changes. Out of range, by its offset or by its end, it completes with OutOfRange and everything
but the reply is as it was. -/
def Obligations.SetvramWritesWindowOrFails : Prop :=
  ∀ (s : State) (offset : Half) (payload : List Byte), s.raster = none →
    Memory.wf s.vram = true →
    (offset.toNat ≤ 16383 → offset.toNat + payload.length ≤ 16384 →
      ∃ t, exec (.setvram offset payload) s = .next t ∧
        (∀ (k : Nat) (h : k < payload.length), memRead t.vram (offset.toNat + k) = payload[k]) ∧
        (∀ a, a < 16384 → (a < offset.toNat ∨ offset.toNat + payload.length ≤ a) →
          memRead t.vram a = memRead s.vram a) ∧
        t.reply = some { code := .ok, data := none, picture := none } ∧
        t.params = s.params ∧ t.regs = s.regs ∧ t.raster = none ∧ t.input = s.input) ∧
    (16383 < offset.toNat ∨ 16384 < offset.toNat + payload.length →
      exec (.setvram offset payload) s =
        .next { s with reply := some { code := .outOfRange, data := none, picture := none } }) ∧
    (payload.length < 65536 →
      decode (0x01#8 :: offset.setWidth 8 :: (offset >>> 8).setWidth 8 ::
        BitVec.ofNat 8 payload.length :: BitVec.ofNat 8 (payload.length / 256) :: payload) =
          .ok (.setvram offset payload, []))

/-- R185: READVRAM is header 0x02 and ADDR. It completes with OK and the byte at
`addr mod 16384`, and changes nothing but the reply. -/
def Obligations.ReadvramReturnsByte : Prop :=
  ∀ (s : State) (addr : Half), s.raster = none →
    exec (.readvram addr) s =
      .next { s with reply := some { code := .ok, data := some (Memory.read s.vram (addr.toNat % 16384)), picture := none } } ∧
    decode [0x02#8, addr.setWidth 8, (addr >>> 8).setWidth 8] = .ok (.readvram addr, [])

/-- R186: a byte an accepted SETVRAM wrote is what READVRAM returns, with any number of
transactions other than SETVRAM performed between. -/
def Obligations.ReadBackAfterWrite : Prop :=
  ∀ (s t u : State) (offset : Half) (payload : List Byte) (between : List Instr) (k : Nat),
    s.raster = none → Memory.wf s.vram = true → offset.toNat ≤ 16383 →
    offset.toNat + payload.length ≤ 16384 → (hk : k < payload.length) →
    (∀ i ∈ between, ∀ o b, i ≠ .setvram o b) →
    performAll (.setvram offset payload :: between) s = .next t →
    exec (.readvram (offset + BitVec.ofNat 16 k)) t = .next u →
    u.reply = some { code := .ok, data := some payload[k], picture := none }

/-! ## RENDER -/

/-- R187, R177, R179, R180: RENDER is header 0x03. It completes with OK and a frame of 49152 pixels
whose element `y*256 + x` is the palette entry of the sprite colour if it is not 0, else of the
background colour if it is not 0, else of BD. The status byte is F = 1 with the accumulators that
the 192 scanlines, in order, leave; INT is IE; nothing but the reply changes (R189). -/
def Obligations.RenderReturnsPicture : Prop :=
  ∀ s : State, s.raster = none →
    let d := decodeRegs s.params s.regs
    let acc := (List.finRange 192).foldl
      (fun a y => (lineSprites s.params d s.vram y.val a).2) FrameAcc.start
    decode [0x03#8] = .ok (.render, []) ∧
    ∃ pic : Picture,
      exec .render s =
        .next { s with reply := some { code := .ok, data := none, picture := some pic } } ∧
      pic.frame.length = 49152 ∧
      (∀ (x : Fin 256) (y : Fin 192),
        let sprite := (spriteLayer s.params d s.vram y.val)[x]
        let bg := background s.params d s.vram x.val y.val
        let idx := if sprite ≠ 0#4 then sprite else if bg ≠ 0#4 then bg else d.bd
        pic.frame[y.val * 256 + x.val]? = some s.params.palette[idx.toNat]) ∧
      pic.status.toNat = 128 + 64 * acc.acc5S.toNat + 32 * acc.accC.toNat +
        (if acc.acc5S then acc.accFSN.toNat else 0) ∧
      pic.int = s.regs[1].getLsbD 5

/-- R21, R160, R163: the status byte of a RENDER. F is 1. When the sprite engine runs, 5S says
whether some scanline had a fifth sprite in range, C whether some scanline had a collision, and FSN
is the fifth sprite of the first overflowing scanline, 0 if there is none; when it does not run,
the byte is 0x80. -/
def Obligations.RenderStatusFlags : Prop :=
  ∀ (p : Params) (regs : Vector Byte 8) (vram : Memory),
    let d := decodeRegs p regs
    let status := (render p regs vram).status
    status.getLsbD 7 = true ∧
    (regs[1].getLsbD 6 = true ∧ d.mode ≠ .tx →
      (status.getLsbD 6 = true ↔ ∃ y < 192, (scanLine d vram y).2.isSome = true) ∧
      (status.getLsbD 5 = true ↔
        ∃ y < 192, (drawActive p d vram (scanLine d vram y).1).hit = true) ∧
      ((∀ y < 192, (scanLine d vram y).2 = none) → status.toNat % 32 = 0) ∧
      (∀ y < 192, ∀ i, (scanLine d vram y).2 = some i →
        (∀ y' < y, (scanLine d vram y').2 = none) → status.toNat % 32 = i.val)) ∧
    (¬(regs[1].getLsbD 6 = true ∧ d.mode ≠ .tx) → status = 0x80#8)

/-- R97, R136: with the display disabled every pixel is the backdrop colour and the status byte
is 0x80, whatever the mode and VRAM. -/
def Obligations.BlankedScreenIsBackdrop : Prop :=
  ∀ (p : Params) (regs : Vector Byte 8) (vram : Memory), regs[1].getLsbD 6 = false →
    (render p regs vram).frame =
      List.replicate 49152 p.palette[(regs[7].extractLsb' 0 4 : Colour).toNat] ∧
    (render p regs vram).status = 0x80#8

/-- R151: in Text mode no sprite is drawn and no flag is written: the status byte is 0x80 and
every pixel is the palette entry of the background colour, or of BD where that is 0. -/
def Obligations.TextModeHasNoSprites : Prop :=
  ∀ (p : Params) (regs : Vector Byte 8) (vram : Memory), (decodeRegs p regs).mode = .tx →
    (render p regs vram).status = 0x80#8 ∧
    ∀ (x : Fin 256) (y : Fin 192),
      let bg := background p (decodeRegs p regs) vram x.val y.val
      (render p regs vram).frame[y.val * 256 + x.val]? =
        some p.palette[(if bg = 0#4 then (decodeRegs p regs).bd else bg).toNat]

/-- R19, R94, R95: the reserved register bits, VR16K and EXTVID reach no output. -/
def Obligations.UnusedRegisterBitsNoEffect : Prop :=
  ∀ (p : Params) (regs regs' : Vector Byte 8) (vram : Memory),
    (∀ n : Fin 8, regs[n] &&& usedBits[n] = regs'[n] &&& usedBits[n]) →
    render p regs vram = render p regs' vram

/-- R188: two states with the same parameters, registers and VRAM return the same picture,
whatever else they hold, and returning one changes none of the three. -/
def Obligations.RenderDependsOnRegsAndVram : Prop :=
  ∀ s s' : State, s.raster = none → s'.raster = none → s.params = s'.params →
    s.regs = s'.regs → s.vram = s'.vram →
    ∃ t t', exec .render s = .next t ∧ exec .render s' = .next t' ∧ t.reply = t'.reply ∧
      t.params = s.params ∧ t.regs = s.regs ∧ t.vram = s.vram

/-- The document's solid-fill property (95_test_vectors.md S5; R139, R147, R177): in Graphics I
with the display enabled and the sentinel in sprite entry 0, if every name-table entry points to
an all-zero pattern and its colour byte's background nibble is K or transparent, and BD is K,
every pixel is palette entry K. -/
def Obligations.SolidFill : Prop :=
  ∀ (p : Params) (regs : Vector Byte 8) (vram : Memory) (k : Colour),
    let d := decodeRegs p regs
    regs[1].getLsbD 6 = true → d.mode = .g1 → d.bd = k →
    memRead vram d.sa.toNat = 0xD0#8 →
    (∀ cell < 768,
      let name := (memRead vram (d.nt.toNat + cell)).toNat
      let background := (memRead vram (d.ct.toNat + name / 8)).toNat % 16
      (∀ line < 8, memRead vram (d.pg.toNat + name * 8 + line) = 0x00#8) ∧
      (background = k.toNat ∨ background = 0)) →
    (render p regs vram).frame = List.replicate 49152 p.palette[k.toNat]

/-! ## The sprite engine -/

/-- R153, R155, R156: the scan of a scanline selects the first four sprites in vertical range
before the sentinel, in index order, each with its row, and reports the next one, if any, as the
fifth. -/
def Obligations.ScanSelectsFirstFour : Prop :=
  ∀ (d : Fields) (vram : Memory) (y : Nat),
    ((scanLine d vram y).1.map fun a => a.index) = (spritesInRange d vram y).take 4 ∧
    (∀ a ∈ (scanLine d vram y).1, (a.row : Int) = spriteRow y (spriteYByte d vram a.index)) ∧
    (scanLine d vram y).2 = (spritesInRange d vram y)[4]?

/-- R168: with the sentinel in entry N, no entry at or above N is selected on any scanline or
counted as the fifth. -/
def Obligations.SentinelEndsTable : Prop :=
  ∀ (d : Fields) (vram : Memory) (n : Fin 32) (y : Nat), spriteYByte d vram n = 0xD0#8 →
    (∀ a ∈ (scanLine d vram y).1, a.index < n) ∧
    (∀ i, (scanLine d vram y).2 = some i → i < n)

/-- R164, R165: the sprite colour of a column is the colour of the first drawn sprite that is
opaque and covers it, and 0 if there is none. -/
def Obligations.LowestOpaqueSpriteWins : Prop :=
  ∀ (p : Params) (d : Fields) (vram : Memory) (active : List ActiveSprite) (sx : Fin 256),
    (drawActive p d vram active).scol[sx] =
      match active.find? fun a => spriteOpaque d vram a && spriteCovers p d vram a sx with
      | some a => spriteColour d vram a.index
      | none => 0#4

/-- R163, R162: a line collides exactly when two of its drawn sprites, both taking part in
collision, cover the same on-screen column. -/
def Obligations.CollisionIffSharedColumn : Prop :=
  ∀ (p : Params) (d : Fields) (vram : Memory) (active : List ActiveSprite),
    (drawActive p d vram active).hit = true ↔
      ∃ (j k : Nat) (hj : j < active.length) (hk : k < active.length) (sx : Fin 256), j < k ∧
        spriteCollides p d vram active[j] = true ∧ spriteCovers p d vram active[j] sx = true ∧
        spriteCollides p d vram active[k] = true ∧ spriteCovers p d vram active[k] sx = true

/-- R158: a sprite with the early clock at X = 0 and the default shift of 32 covers no on-screen
column, whatever its size and pattern. -/
def Obligations.EarlyClockAtZeroIsOffScreen : Prop :=
  ∀ (p : Params) (m : Mode) (regs : Vector Byte 8) (vram : Memory) (a : ActiveSprite)
    (sx : Fin 256), p.ecShift = 32 →
    memRead vram (attrAddr (decodeAs m regs) a.index 1) = 0x00#8 →
    (spriteAttr (decodeAs m regs) vram a.index).getLsbD 7 = true →
    spriteCovers p (decodeAs m regs) vram a sx = false

/-- R158, R161, R157, R76: the columns a sprite covers, from its X byte, its EC bit and
`P_EC_SHIFT`, and its colour. With `X' = X - (EC ? P_EC_SHIFT : 0)` it covers an on-screen column
exactly when that is `X' + px` for a displayed column px below the extent whose source bit is 1;
zoom shows each source row and column twice. -/
def Obligations.SpriteColumnsFromXByte : Prop :=
  ∀ (p : Params) (m : Mode) (regs : Vector Byte 8) (vram : Memory) (a : ActiveSprite)
    (sx : Fin 256),
    let d := decodeAs m regs
    let attr := memRead vram (d.sa.toNat + 4 * a.index.val + 3)
    let x := (memRead vram (d.sa.toNat + 4 * a.index.val + 1)).toNat
    let left : Int := (x : Int) - (if attr.getLsbD 7 = true then (p.ecShift : Int) else 0)
    let zoom : Nat := if regs[1].getLsbD 0 = true then 2 else 1
    let extent : Nat := (if regs[1].getLsbD 1 = true then 16 else 8) * zoom
    (spriteCovers p d vram a sx = true ↔
      ∃ px : Nat, px < extent ∧ (sx.val : Int) = left + (px : Int) ∧
        (spriteBits d vram a.index (a.row / zoom)).getLsbD (15 - px / zoom) = true) ∧
    (spriteColour d vram a.index).toNat = attr.toNat % 16

/-- R154, R155: the scanlines a sprite is in range on, from its Y byte: from line Y + 1 on for
Y up to 0xE0, and entering from above the screen for 0xE1 .. 0xFF. -/
def Obligations.SpriteLinesOfYByte : Prop :=
  ∀ (extent y : Nat) (yByte : Byte),
    (yByte.toNat ≤ 0xE0 →
      (rowInRange extent (spriteRow y yByte) = true ↔
        yByte.toNat + 1 ≤ y ∧ y < yByte.toNat + 1 + extent)) ∧
    (0xE0 < yByte.toNat →
      (rowInRange extent (spriteRow y yByte) = true ↔ y + 255 < yByte.toNat + extent))

/-- R159, R129, R130: source columns 0..7 come from the left byte and 8..15 from the right, bit 7
first; an 8×8 sprite has no columns past 7, and a 16×16 one ignores the two low bits of NAME. -/
def Obligations.SpriteSourceColumns : Prop :=
  ∀ (d : Fields) (vram : Memory) (i : Fin 32) (srow c : Nat), c < 8 →
    let name := (memRead vram (attrAddr d i 2)).toNat
    let bits := spriteBits d vram i srow
    (d.size16 = false →
      bits.getLsbD (15 - c) = (memRead vram (d.sp.toNat + name * 8 + srow)).getLsbD (7 - c) ∧
      bits.getLsbD (15 - (8 + c)) = false) ∧
    (d.size16 = true →
      bits.getLsbD (15 - c) =
        (memRead vram (d.sp.toNat + name / 4 * 32 + srow)).getLsbD (7 - c) ∧
      bits.getLsbD (15 - (8 + c)) =
        (memRead vram (d.sp.toNat + name / 4 * 32 + 16 + srow)).getLsbD (7 - c))

/-! ## The register decoder and the address resolver -/

/-- R102, R109, R110, R107, R108: the bases and colours every mode decodes alike, as numbers. -/
def Obligations.CommonFieldsDecode : Prop :=
  ∀ (p : Params) (regs : Vector Byte 8),
    let d := decodeRegs p regs
    d.nt.toNat = regs[2].toNat % 16 * 1024 ∧
    d.sa.toNat = regs[5].toNat % 128 * 128 ∧
    d.sp.toNat = regs[6].toNat % 8 * 2048 ∧
    d.tc.toNat = regs[7].toNat / 16 ∧
    d.bd.toNat = regs[7].toNat % 16

/-- R99, R100: the displayed extent of every sprite, from R1[1] and R1[0]. -/
def Obligations.SpriteExtentDecode : Prop :=
  ∀ (p : Params) (regs : Vector Byte 8),
    (decodeRegs p regs).extent =
      (if regs[1].getLsbD 1 = true then 16 else 8) * (if regs[1].getLsbD 0 = true then 2 else 1)

/-- R103, R105 outside Graphics II and R104, R106 in it: the colour and pattern table bases and
masks, as numbers. -/
def Obligations.ColourAndPatternBasesDecode : Prop :=
  ∀ (p : Params) (regs : Vector Byte 8),
    let d := decodeRegs p regs
    (d.mode ≠ .g2 →
      d.ct.toNat = regs[3].toNat * 64 ∧ d.ctmask.toNat = 16383 ∧
      d.pg.toNat = regs[4].toNat % 8 * 2048 ∧ d.pgmask.toNat = 16383) ∧
    (d.mode = .g2 →
      d.ct.toNat = regs[3].toNat / 128 * 8192 ∧
      d.ctmask.toNat = regs[3].toNat % 128 * 64 + 63 ∧
      d.pg.toNat = regs[4].toNat / 4 % 2 * 8192 ∧
      d.pgmask.toNat = regs[4].toNat % 4 * 2048 + 2047)

/-- R93, R70: the mode of a register bank under the default `P_UNDOC_MODE`. -/
def Obligations.ModeOfModeBits : Prop :=
  ∀ regs : Vector Byte 8,
    (decodeRegs referenceParams regs).mode =
      (if regs[0].getLsbD 1 = true then Mode.g2
       else if regs[1].getLsbD 4 = true ∧ regs[1].getLsbD 3 = false then Mode.tx
       else if regs[1].getLsbD 4 = false ∧ regs[1].getLsbD 3 = true then Mode.mc
       else Mode.g1)

/-- R131: every address the resolver computes for decoded fields and coordinates in range lies in
0..0x3FFF, so the modulo of `MemRead` never alters one. -/
def Obligations.ResolverAddressesInVram : Prop :=
  ∀ (p : Params) (m : Mode) (regs : Vector Byte 8) (row col name line third y srow k : Nat)
    (i : Fin 32),
    let d := decodeAs m regs
    row < 24 → col < nameWidth m → name < 256 → line < 8 → third < 3 → srow < 16 → k < 4 →
    nameAddr d row col < 16384 ∧
    (m = .g1 → g1PatAddr d name line < 16384 ∧ g1ColAddr d name < 16384) ∧
    (m = .g2 → g2PatAddr d third name line < 16384 ∧ g2ColAddr p d third name line < 16384) ∧
    (m = .mc → mcAddr d name row y < 16384) ∧
    (m = .tx → txPatAddr d name line < 16384) ∧
    attrAddr d i k < 16384 ∧
    (srow < 8 → spAddr d name srow < 16384) ∧
    spAddrL d name srow < 16384 ∧ spAddrR d name srow < 16384

/-! ## The background modes, as mode rows perform them -/

/-- R139: MODE.G1 completes; with the display enabled the pixel it adds is the palette entry of
the sprite colour, else of the Graphics I background colour, else of BD (R177). A mode row as a
step that makes one pixel is the model's choice (log 6). -/
def Obligations.ModeG1MakesPixel : Prop :=
  ∀ (s : State) (r : Raster), s.raster = some r → s.regs[1].getLsbD 6 = true →
    let d := decodeAs .g1 s.regs
    let row := r.y.val / 8
    let col := r.x.val / 8
    let name := (memRead s.vram (d.nt.toNat + row * 32 + col)).toNat
    let pbyte := memRead s.vram (d.pg.toNat + name * 8 + r.y.val % 8)
    let cbyte := memRead s.vram (d.ct.toNat + name / 8)
    let bg : Colour := if pbyte.getLsbD (7 - r.x.val % 8) then cbyte.extractLsb' 4 4
                       else cbyte.extractLsb' 0 4
    ∃ t, exec .modeG1 s = .next t ∧
      pixelsSoFar t = r.pixels ++
        [paletteRgb s.params (compose (spriteAtRaster s.params d s.vram r) bg d.bd)]

/-- R70, R139: MODE.G1_UNDOC_M1M2 completes, and under a `P_UNDOC_MODE` that gives it G1 it makes
exactly what MODE.G1 makes. A mode row as a step that makes one pixel is the model's choice
(log 6). -/
def Obligations.ModeG1UndocMakesG1Pixel : Prop :=
  ∀ (s : State) (r : Raster), s.raster = some r → s.params.undoc.m1m2 = .g1 →
    ∃ t, exec .modeG1UndocM1M2 s = .next t ∧ exec .modeG1 s = .next t ∧
      (pixelsSoFar t).length = r.pixels.length + 1

/-- R140, R124, R125, R70: MODE.G2 completes; with the display enabled and the three mode bits
selecting Graphics II (M3 alone, and by default M3 with any M1 and M2) the pixel it adds uses the
masked Graphics II addresses, for either value of `P_GII_COLOR_PER_ROW`. A mode row as a step that
makes one pixel is the model's choice (log 6). -/
def Obligations.ModeG2MakesPixel : Prop :=
  ∀ (s : State) (r : Raster), s.raster = some r → s.regs[1].getLsbD 6 = true →
    selectMode s.params.undoc (s.regs[1].getLsbD 4) (s.regs[1].getLsbD 3) true = .g2 →
    let d := decodeAs .g2 s.regs
    let row := r.y.val / 8
    let col := r.x.val / 8
    let line := r.y.val % 8
    let third := r.y.val / 64
    let name := (memRead s.vram (d.nt.toNat + row * 32 + col)).toNat
    let off := third * 2048 + name * 8 + line
    let pbyte := memRead s.vram (d.pg.toNat ||| (off &&& d.pgmask.toNat))
    let coff := if s.params.giiColorPerRow then off else third * 256 + name
    let cbyte := memRead s.vram (d.ct.toNat ||| (coff &&& d.ctmask.toNat))
    let bg : Colour := if pbyte.getLsbD (7 - r.x.val % 8) then cbyte.extractLsb' 4 4
                       else cbyte.extractLsb' 0 4
    ∃ t, exec .modeG2 s = .next t ∧
      pixelsSoFar t = r.pixels ++
        [paletteRgb s.params (compose (spriteAtRaster s.params d s.vram r) bg d.bd)]

/-- R141, R126: MODE.MC completes; with the display enabled the pixel it adds is a nibble of the
pattern-table byte the name, the cell row and the line select, with no pattern bit tested. A mode
row as a step that makes one pixel is the model's choice (log 6). -/
def Obligations.ModeMCMakesPixel : Prop :=
  ∀ (s : State) (r : Raster), s.raster = some r → s.regs[1].getLsbD 6 = true →
    let d := decodeAs .mc s.regs
    let row := r.y.val / 8
    let col := r.x.val / 8
    let name := (memRead s.vram (d.nt.toNat + row * 32 + col)).toNat
    let mbyte := memRead s.vram (d.pg.toNat + name * 8 + row % 4 * 2 + r.y.val / 4 % 2)
    let bg : Colour := if r.x.val % 8 < 4 then mbyte.extractLsb' 4 4 else mbyte.extractLsb' 0 4
    ∃ t, exec .modeMC s = .next t ∧
      pixelsSoFar t = r.pixels ++
        [paletteRgb s.params (compose (spriteAtRaster s.params d s.vram r) bg d.bd)]

/-- R143, R144, R146: MODE.TX completes; with the display enabled the background colour of
the pixel it adds is BD in the 8 + 8 border columns, and inside them TC or BD by the glyph bit. The
sprite colour is the line's own, which entering a line in Text mode is 0 (R151). A mode row as a
step that makes one pixel is the model's choice (log 6). -/
def Obligations.ModeTXMakesPixel : Prop :=
  ∀ (s : State) (r : Raster), s.raster = some r → s.regs[1].getLsbD 6 = true →
    let d := decodeAs .tx s.regs
    let row := r.y.val / 8
    let col := (r.x.val - 8) / 6
    let px := (r.x.val - 8) % 6
    let name := (memRead s.vram (d.nt.toNat + row * 40 + col)).toNat
    let pbyte := memRead s.vram (d.pg.toNat + name * 8 + r.y.val % 8)
    let bg : Colour := if r.x.val < 8 ∨ 248 ≤ r.x.val then d.bd
                       else if pbyte.getLsbD (7 - px) then d.tc else d.bd
    ∃ t, exec .modeTX s = .next t ∧
      pixelsSoFar t = r.pixels ++
        [paletteRgb s.params (compose (spriteAtRaster s.params d s.vram r) bg d.bd)]

/-- R136, R151: from every state with the invariant, every mode row completes with the display
disabled too, and the pixel it adds is the palette entry of BD. A mode row as a step that makes one
pixel is the model's choice (log 6). -/
def Obligations.BlankedModeRowMakesBackdrop : Prop :=
  ∀ (i : Instr) (s : State) (r : Raster), s.Inv → i.isModeRow = true → s.raster = some r →
    s.regs[1].getLsbD 6 = false →
    let bd : Colour := s.regs[7].extractLsb' 0 4
    ∃ t, exec i s = .next t ∧ pixelsSoFar t = r.pixels ++ [s.params.palette[bd.toNat]]

/-- R145: bits 1:0 of a Text pattern byte reach no displayed pixel column. -/
def Obligations.TextLowPatternBitsUnshown : Prop :=
  ∀ (pbyte pbyte' : Byte) (x : Nat), textBorder x = false → pbyte >>> 2 = pbyte' >>> 2 →
    patternBit pbyte (textPx x) = patternBit pbyte' (textPx x)

/-- R138: the mode row a RENDER in progress performs is the one of its registers' decoded mode,
whatever the parameters: performing the row the key matches makes the pixel in that mode. R138
gives the dispatch; a mode row as a step that makes one pixel is the model's choice (log 6). -/
def Obligations.ModeRowFollowsDecodedMode : Prop :=
  ∀ (s : State) (r : Raster), s.raster = some r →
    exec (decodeKey (modeKey s.regs)) s = .next (rasterPixel (decodeRegs s.params s.regs).mode s r)

/-- R25, R28: every mode row completes while a RENDER is in progress and changes no register, no
VRAM byte, no parameter and no issued byte; it moves on to the next column, at the end of a line
to the first column of the next with the line's sprite state empty, and after (191, 255) the
RENDER returns and none is left. Before that the reply stands. Past the first column of a line the
line's sprite state and the accumulators stand (R26, R27). -/
def Obligations.ModeRowAdvancesRaster : Prop :=
  ∀ (i : Instr) (s : State) (r : Raster), i.isModeRow = true → s.raster = some r →
    ∃ t, exec i s = .next t ∧ t.params = s.params ∧ t.regs = s.regs ∧ t.vram = s.vram ∧
      t.input = s.input ∧
      (r.x.val < 255 → t.reply = s.reply ∧
        ∃ r', t.raster = some r' ∧ r'.x.val = r.x.val + 1 ∧ r'.y = r.y ∧
          (0 < r.x.val → r'.line = r.line ∧ r'.acc = r.acc)) ∧
      (r.x.val = 255 → r.y.val < 191 → t.reply = s.reply ∧
        ∃ r', t.raster = some r' ∧ r'.x = 0 ∧ r'.y.val = r.y.val + 1 ∧
          r'.line = LineState.start ∧ r'.acc = r.acc) ∧
      (r.x.val = 255 → r.y.val = 191 → t.raster = none ∧
        ∃ pic, t.reply = some { code := .ok, data := none, picture := some pic } ∧
          pic.int = s.regs[1].getLsbD 5 ∧ pic.status.getLsbD 7 = true)

/-- R151, R152, R160, R163, R166: the mode row that makes the first pixel of a scanline runs the
sprite engine for it. With the display enabled and the mode not Text the line's selected sprites and
sprite colours are those of the scan, 5S and C are set by the line and never cleared, and FSN is
latched by the first line that sets 5S; otherwise the line has no sprite and the accumulators
stand. That it runs at column 0 is the model's reading (log 17). -/
def Obligations.EnteringLineRunsSprites : Prop :=
  ∀ (s : State) (r : Raster), s.raster = some r → r.x.val = 0 →
    let d := decodeRegs s.params s.regs
    let scan := scanLine d s.vram r.y.val
    let paint := drawActive s.params d s.vram scan.1
    ∃ t r', exec (decodeKey (modeKey s.regs)) s = .next t ∧ t.raster = some r' ∧
      (d.blankN = true ∧ d.mode ≠ .tx →
        r'.line = { active := scan.1, cover := paint.cover, scol := paint.scol } ∧
        r'.acc.acc5S = (r.acc.acc5S || scan.2.isSome) ∧
        r'.acc.accC = (r.acc.accC || paint.hit) ∧
        (r.acc.acc5S = true → r'.acc.accFSN = r.acc.accFSN) ∧
        (r.acc.acc5S = false → ∀ i, scan.2 = some i → r'.acc.accFSN.toNat = i.val)) ∧
      (¬(d.blankN = true ∧ d.mode ≠ .tx) → r'.line = LineState.start ∧ r'.acc = r.acc)

/-- R187, R180: from every state with the invariant and a RENDER in progress, the step makes the
next pixel of the frame of the state's own REG, VRAM and parameters, with the sprite colour of its
scanline there, and the step after the last position returns that whole picture. A RENDER made
pixel by pixel is the model's choice (log 6). -/
def Obligations.StepMakesNextFramePixel : Prop :=
  ∀ (s : State) (r : Raster), s.Inv → s.raster = some r →
    let d := decodeRegs s.params s.regs
    spriteAtRaster s.params d s.vram r = (spriteLayer s.params d s.vram r.y.val)[r.x] ∧
    ∃ t, step s = .next t ∧
      pixelsSoFar t =
        (render s.params s.regs s.vram).frame.take (r.y.val * 256 + r.x.val + 1) ∧
      (r.x.val = 255 → r.y.val = 191 → t.reply =
        some { code := .ok, data := none, picture := some (render s.params s.regs s.vram) })

/-- R187, R190: performing a RENDER whole is the same as beginning it and performing the mode row
of its key once for each of the 49152 pixels. That a RENDER can be made pixel by pixel is the
model's choice (log 6). -/
def Obligations.RenderWholeIsPixelByPixel : Prop :=
  ∀ s : State, s.raster = none →
    ∃ t, exec .render s = .next t ∧
      Host.Core.run Sys2Proof.core 49152 s.beginRender = .next t

/-! ## Refusals -/

/-- R222 (93 I17; log 7): a host transaction while a RENDER is in progress is refused by name. -/
def Obligations.TransactionDuringRenderRefused : Prop :=
  ∀ (i : Instr) (s : State) (r : Raster), i.isModeRow = false → s.raster = some r →
    exec i s = .refused .renderInProgress

/-- R25 (log 8): a mode row with no RENDER in progress is refused by name. -/
def Obligations.ModeRowOutsideRenderRefused : Prop :=
  ∀ (i : Instr) (s : State), i.isModeRow = true → s.raster = none →
    exec i s = .refused .noRenderInProgress

/-! ## Whole-machine rules -/

/-- R196 to R200, R58: a host transaction returns code 1 exactly when it is a SETREGS with a byte
count other than 8, code 2 exactly when it is a SETVRAM over the 16384 bytes or with an offset
above 16383, and otherwise 0; with an error it changes nothing and returns nothing but the code. -/
def Obligations.ErrorsAreBadInputOnly : Prop :=
  ∀ (i : Instr) (s t : State), i.isModeRow = false → exec i s = .next t →
    ∃ reply, t.reply = some reply ∧
      (reply.code.number = 1 ↔ ∃ payload, i = .setregs payload ∧ payload.length ≠ 8) ∧
      (reply.code.number = 2 ↔ ∃ offset payload, i = .setvram offset payload ∧
        (16383 < offset.toNat ∨ 16384 < offset.toNat + payload.length)) ∧
      reply.code.number ≤ 2 ∧
      (reply.code.number ≠ 0 →
        t = { s with reply := some { code := reply.code, data := none, picture := none } })

/-- R16, R181: a step changes the register bank only by performing a SETREGS of 8 bytes at the
head of the stream, and then it holds exactly those bytes. -/
def Obligations.RegistersChangeOnlyBySetregs : Prop :=
  ∀ s t : State, step s = .next t → t.regs ≠ s.regs →
    s.raster = none ∧ ∃ (payload rest : List Byte),
      decode s.input = .ok (.setregs payload, rest) ∧ t.regs.toList = payload ∧
      t.vram = s.vram ∧ t.input = rest

/-- R23, R183: a step changes VRAM only by performing an in-range SETVRAM at the head of the
stream. -/
def Obligations.VramChangesOnlyBySetvram : Prop :=
  ∀ s t : State, step s = .next t → t.vram ≠ s.vram →
    s.raster = none ∧ ∃ (offset : Half) (payload rest : List Byte),
      decode s.input = .ok (.setvram offset payload, rest) ∧
      offset.toNat + payload.length ≤ 16384 ∧
      t.vram = Memory.writeBytes s.vram offset.toNat payload ∧ t.regs = s.regs

/-- R24, R173, R9: no step changes the palette or any other parameter. -/
def Obligations.ParametersNeverChange : Prop :=
  ∀ s t : State, step s = .next t → t.params = s.params

/-- The invariant `State.Inv` is kept by every step, from every state that has it: VRAM stays
canonical; a RENDER in progress has made exactly the pixels of the state's own frame before its
position, and its line's sprite state and accumulators are those the sprite engine leaves there for
the state's own REG, VRAM and parameters, with at most four sprites on the line; a returned frame
has 49152 pixels. A RENDER in progress between steps is the model's choice (log 6). -/
def Obligations.StepKeepsInvariant : Prop :=
  ∀ s t : State, s.Inv → step s = .next t → t.Inv

/-! ## Reset -/

/-- R32, R216, R217 at the reference values: all registers 0, decoded as Graphics I, blanked,
IE 0, every base 0; the default palette; no RENDER in progress and nothing returned. -/
def Obligations.ResetState : Prop :=
  (∀ n : Fin 8, State.reset.regs[n] = 0x00#8) ∧
  (let d := decodeRegs State.reset.params State.reset.regs
   d.mode = .g1 ∧ d.blankN = false ∧ d.ie = false ∧ d.size16 = false ∧ d.mag = false ∧
   d.nt = 0#14 ∧ d.ct = 0#14 ∧ d.pg = 0#14 ∧ d.sa = 0#14 ∧ d.sp = 0#14 ∧ d.tc = 0#4 ∧
   d.bd = 0#4) ∧
  State.reset.params = referenceParams ∧ State.reset.raster = none ∧ State.reset.reply = none

/-- The state after reset has the invariant. -/
def Obligations.ResetHasInvariant : Prop :=
  State.reset.Inv

/-- R216: creation with any parameters, any `P_INIT_REGS` and any 16384 bytes `P_INIT_VRAM` gives
exactly those registers and that VRAM, holds no RENDER and no result, and has the invariant. -/
def Obligations.CreationTakesInitialValues : Prop :=
  ∀ (p : Params) (regs : Vector Byte 8) (vram : List Byte), (h : vram.length = 16384) →
    (State.create p regs vram).params = p ∧ (State.create p regs vram).regs = regs ∧
    (∀ (a : Nat) (ha : a < 16384), memRead (State.create p regs vram).vram a = vram[a]) ∧
    (State.create p regs vram).raster = none ∧ (State.create p regs vram).reply = none ∧
    (State.create p regs vram).Inv

/-! ## Pseudo-transactions -/

/-- R86, R53: loading a dump of 16392 bytes completes from every state with no RENDER in progress:
VRAM holds its first 16384 bytes and the registers its last 8. -/
def Obligations.LoadDumpSetsVramAndRegs : Prop :=
  ∀ (s : State) (dump : List Byte), s.raster = none → Memory.wf s.vram = true →
    (h : dump.length = 16392) →
    ∃ t, performAll (AsmLine.loaddump dump).expand s = .next t ∧
      (∀ (a : Nat) (ha : a < 16384), memRead t.vram a = dump[a]) ∧
      (∀ n : Fin 8, t.regs[n] = dump[16384 + n.val]) ∧
      t.params = s.params ∧ t.input = s.input

/-- R86, R183: FILLVRAM of an in-range window completes: every byte of the window reads the fill
value and every other byte as before. -/
def Obligations.FillVramFillsWindow : Prop :=
  ∀ (s : State) (offset : Half) (n : Nat) (v : Byte), s.raster = none →
    Memory.wf s.vram = true → offset.toNat ≤ 16383 → offset.toNat + n ≤ 16384 →
    ∃ t, performAll (AsmLine.fillvram offset n v).expand s = .next t ∧
      (∀ a, a < 16384 → memRead t.vram a =
        if offset.toNat ≤ a ∧ a < offset.toNat + n then v else memRead s.vram a) ∧
      t.regs = s.regs
end

