-- ==== Sys2Proof/Laws/Decode.lean ====
section
/-! SUPPORT. What the pieces of the decoder do (30_encoding.md R80 to R83). -/

namespace Sys2Proof

/-- Taking exactly `n` items: there are that many, and they are the front of the list. -/
theorem takeExactly_eq_some {α : Type} {n : Nat} {l a b : List α} :
    takeExactly n l = some (a, b) ↔ l = a ++ b ∧ a.length = n := by
  induction n generalizing l a b with
  | zero =>
    simp only [takeExactly, Option.some.injEq, Prod.mk.injEq, List.length_eq_zero_iff]
    constructor
    · rintro ⟨rfl, rfl⟩; simp
    · rintro ⟨rfl, rfl⟩; simp
  | succ n ih =>
    cases l with
    | nil =>
      simp only [takeExactly, reduceCtorEq, false_iff, not_and]
      intro h; have := (List.append_eq_nil_iff.1 h.symm).1; simp [this]
    | cons c l =>
      simp only [takeExactly]
      cases h : takeExactly n l with
      | none =>
        simp only [reduceCtorEq, false_iff, not_and]
        intro h1 h2
        cases a with
        | nil => simp at h2
        | cons a0 a =>
          simp only [List.cons_append, List.cons.injEq] at h1
          have := (ih (a := a)).2 ⟨h1.2, by simpa using h2⟩
          simp [h] at this
      | some r =>
        obtain ⟨t, r⟩ := r
        obtain ⟨h1, h2⟩ := ih.1 h
        subst h1 h2
        simp only [Option.some.injEq, Prod.mk.injEq]
        constructor
        · rintro ⟨rfl, rfl⟩; simp
        · rintro ⟨h3, h4⟩
          cases a with
          | nil => simp at h4
          | cons a0 a =>
            simp only [List.cons_append, List.cons.injEq, List.length_cons,
              Nat.add_right_cancel_iff] at h3 h4
            obtain ⟨rfl, h3⟩ := h3
            obtain ⟨rfl, rfl⟩ := List.append_inj h3 h4.symm
            simp

@[simp] theorem takeExactly_append {α : Type} (a b : List α) :
    takeExactly a.length (a ++ b) = some (a, b) :=
  takeExactly_eq_some.2 ⟨rfl, rfl⟩

/-- Too few items. -/
theorem takeExactly_eq_none {α : Type} {n : Nat} {l : List α} (h : l.length < n) :
    takeExactly n l = none := by
  cases h1 : takeExactly n l with
  | none => rfl
  | some r =>
    obtain ⟨h2, h3⟩ := takeExactly_eq_some.1 h1
    subst h2 h3
    simp at h

@[simp] theorem half_lowByte_highByte (v : Half) : half (lowByte v) (highByte v) = v := by
  apply BitVec.eq_of_getLsbD_eq
  intro i hi
  simp only [half, lowByte, highByte, BitVec.getLsbD_or, BitVec.getLsbD_shiftLeft,
    BitVec.getLsbD_setWidth, BitVec.getLsbD_extractLsb', hi, decide_true, Bool.true_and]
  by_cases h : i < 8
  · simp [h]
  · simp [h, show i - 8 < 8 by omega, show i - 8 < 16 by omega, show 8 + (i - 8) = i by omega]

@[simp] theorem lowByte_half (l h : Byte) : lowByte (half l h) = l := by
  apply BitVec.eq_of_getLsbD_eq
  intro i hi
  simp [half, lowByte, hi, show i < 16 by omega]

@[simp] theorem highByte_half (l h : Byte) : highByte (half l h) = h := by
  apply BitVec.eq_of_getLsbD_eq
  intro i hi
  simp [half, highByte, hi, show 8 + i < 16 by omega]

/-- LEN holds the payload length of a well-formed instruction (R81). -/
theorem payload_length_toNat {payload : List Byte} (h : payloadFits payload = true) :
    (BitVec.ofNat 16 payload.length).toNat = payload.length := by
  simp only [payloadFits, decide_eq_true_eq] at h
  simp [BitVec.toNat_ofNat, Nat.mod_eq_of_lt h]

/-- What a transaction's bytes can decode to, header by header. -/
theorem decode_cons (header : Byte) (rest : List Byte) :
    (header = hdrSetregs ∧ decode (header :: rest) = decodeSetregs rest) ∨
    (header = hdrSetvram ∧ decode (header :: rest) = decodeSetvram rest) ∨
    (header = hdrReadvram ∧ decode (header :: rest) = decodeReadvram rest) ∨
    (header = hdrRender ∧ decode (header :: rest) = .ok (.render, rest)) ∨
    (4 ≤ header.toNat ∧ decode (header :: rest) = .error (.reservedHeader header)) := by
  simp only [decode]
  by_cases h0 : header = hdrSetregs
  · simp [h0]
  by_cases h1 : header = hdrSetvram
  · simp [h1, hdrSetvram, hdrSetregs]
  by_cases h2 : header = hdrReadvram
  · simp [h2, hdrReadvram, hdrSetvram, hdrSetregs]
  by_cases h3 : header = hdrRender
  · simp [h3, hdrRender, hdrReadvram, hdrSetvram, hdrSetregs]
  · simp only [h0, h1, h2, h3, if_false, false_and, false_or, and_true]
    simp only [hdrSetregs, hdrSetvram, hdrReadvram, hdrRender, ← BitVec.toNat_inj] at h0 h1 h2 h3
    simp at h0 h1 h2 h3
    omega

@[simp] theorem decode_setregs (rest : List Byte) :
    decode (hdrSetregs :: rest) = decodeSetregs rest := rfl
@[simp] theorem decode_setvram (rest : List Byte) :
    decode (hdrSetvram :: rest) = decodeSetvram rest := rfl
@[simp] theorem decode_readvram (rest : List Byte) :
    decode (hdrReadvram :: rest) = decodeReadvram rest := rfl
@[simp] theorem decode_render (rest : List Byte) :
    decode (hdrRender :: rest) = .ok (.render, rest) := rfl

end Sys2Proof
end

