-- ==== Sys2Proof/Laws/Memory.lean ====
section
/-! SUPPORT. The laws of VRAM: a read after a write, and the canonical form every memory
operation keeps (20_memory.md R42, R50). -/

namespace Sys2Proof.Machine

theorem Memory.wfFrom_cons {low a : Nat} {v : Byte} {m : Memory} :
    Memory.wfFrom low ((a, v) :: m) = true ↔
      low ≤ a ∧ a < vramSize ∧ v ≠ unlistedByte ∧ Memory.wfFrom (a + 1) m = true := by
  simp [Memory.wfFrom, and_assoc]

theorem Memory.wfFrom_mono {low low' : Nat} {m : Memory} (hle : low' ≤ low)
    (h : Memory.wfFrom low m = true) : Memory.wfFrom low' m = true := by
  cases m with
  | nil => rfl
  | cons c m =>
    obtain ⟨h1, h2⟩ := Memory.wfFrom_cons.1 h
    exact Memory.wfFrom_cons.2 ⟨hle.trans h1, h2⟩

/-- Below the first listed address a memory reads as unlisted. -/
theorem Memory.read_below {low a : Nat} {m : Memory} (h : Memory.wfFrom low m = true)
    (ha : a < low) : Memory.read m a = unlistedByte := by
  cases m with
  | nil => rfl
  | cons c m =>
    obtain ⟨h1, -⟩ := Memory.wfFrom_cons.1 h
    simp [Memory.read, show a ≠ c.1 by omega, show a < c.1 by omega]

theorem Memory.wfFrom_put {low a : Nat} {v : Byte} {m : Memory} (hlow : low ≤ a)
    (ha : a < vramSize) (h : Memory.wfFrom (a + 1) m = true) :
    Memory.wfFrom low (Memory.put a v m) = true := by
  unfold Memory.put
  split
  · exact Memory.wfFrom_mono (by omega) h
  · exact Memory.wfFrom_cons.2 ⟨hlow, ha, ‹_›, h⟩

/-- A write of a byte inside VRAM keeps the canonical form. -/
theorem Memory.wfFrom_write {low a : Nat} {v : Byte} {m : Memory} (hlow : low ≤ a)
    (ha : a < vramSize) (h : Memory.wfFrom low m = true) :
    Memory.wfFrom low (Memory.write m a v) = true := by
  induction m generalizing low with
  | nil => exact Memory.wfFrom_put hlow ha rfl
  | cons c m ih =>
    obtain ⟨b, w⟩ := c
    obtain ⟨h1, h2, h3, h4⟩ := Memory.wfFrom_cons.1 h
    simp only [Memory.write]
    split
    · exact Memory.wfFrom_put hlow ha (Memory.wfFrom_cons.2 ⟨by omega, h2, h3, h4⟩)
    · split
      · exact Memory.wfFrom_put hlow ha (Memory.wfFrom_mono (by omega) h4)
      · exact Memory.wfFrom_cons.2 ⟨h1, h2, h3, ih (by omega) h4⟩

theorem Memory.read_put {a b : Nat} {v : Byte} {m : Memory}
    (h : Memory.wfFrom (a + 1) m = true) :
    Memory.read (Memory.put a v m) b = if b = a then v else Memory.read m b := by
  unfold Memory.put
  split <;> rename_i hv
  · split
    · next hb => rw [hb, Memory.read_below h (by omega), hv]
    · rfl
  · simp only [Memory.read]
    split
    · rfl
    · split
      · exact (Memory.read_below h (by omega)).symm
      · rfl

/-- A read after a write: the byte written, or what was there. -/
theorem Memory.read_write {low a b : Nat} {v : Byte} {m : Memory}
    (h : Memory.wfFrom low m = true) :
    Memory.read (Memory.write m a v) b = if b = a then v else Memory.read m b := by
  induction m generalizing low with
  | nil => exact Memory.read_put rfl
  | cons c m ih =>
    obtain ⟨c, w⟩ := c
    obtain ⟨h1, h2, h3, h4⟩ := Memory.wfFrom_cons.1 h
    simp only [Memory.write]
    split
    · exact Memory.read_put (Memory.wfFrom_cons.2 ⟨by omega, h2, h3, h4⟩)
    · split
      · next hac =>
        subst hac
        rw [Memory.read_put h4]
        split
        · rfl
        · simp only [Memory.read]
          split
          · contradiction
          · split
            · exact Memory.read_below h4 (by omega)
            · rfl
      · have hca : c ≠ a := by omega
        simp only [Memory.read, ih h4]
        split
        · next hb => rw [if_neg (by omega)]
        · split
          · rw [if_neg (by omega)]
          · rfl

theorem Memory.wf_write {a : Nat} {v : Byte} {m : Memory} (ha : a < vramSize)
    (h : Memory.wf m = true) : Memory.wf (Memory.write m a v) = true :=
  Memory.wfFrom_write (Nat.zero_le a) ha h

/-- Consecutive byte writes inside VRAM keep the canonical form. -/
theorem Memory.wf_writeBytes {a : Nat} {vs : List Byte} {m : Memory}
    (ha : a + vs.length ≤ vramSize) (h : Memory.wf m = true) :
    Memory.wf (Memory.writeBytes m a vs) = true := by
  induction vs generalizing a m with
  | nil => exact h
  | cons v vs ih =>
    simp only [List.length_cons] at ha
    exact ih (by omega) (Memory.wf_write (by omega) h)

/-- A read after consecutive byte writes: the byte written there, or what was there. -/
theorem Memory.read_writeBytes {a b : Nat} {vs : List Byte} {m : Memory}
    (ha : a + vs.length ≤ vramSize) (h : Memory.wf m = true) :
    Memory.read (Memory.writeBytes m a vs) b =
      if hb : a ≤ b ∧ b < a + vs.length then vs[b - a]'(by omega) else Memory.read m b := by
  induction vs generalizing a m with
  | nil => simp [Memory.writeBytes, show ¬(a ≤ b ∧ b < a) by omega]
  | cons v vs ih =>
    simp only [List.length_cons] at ha
    rw [Memory.writeBytes, ih (by omega) (Memory.wf_write (by omega) h), Memory.read_write h]
    by_cases h1 : b = a
    · subst h1
      simp
    · by_cases h2 : a + 1 ≤ b ∧ b < a + 1 + vs.length
      · have h3 : a ≤ b ∧ b < a + (vs.length + 1) := by omega
        have h4 : b - a = (b - (a + 1)) + 1 := by omega
        simp [h2, h3, h4]
      · have h3 : ¬(a ≤ b ∧ b < a + (vs.length + 1)) := by omega
        rw [dif_neg h2, if_neg h1, dif_neg (by simpa using h3)]

theorem Memory.wf_nil : Memory.wf [] = true := rfl

/-- A VRAM made of given bytes is in canonical form. -/
theorem Memory.wf_ofBytes (bytes : List Byte) : Memory.wf (Memory.ofBytes bytes) = true :=
  Memory.wf_writeBytes (by simp) Memory.wf_nil

/-- Inside VRAM the modulo of `MemRead` does nothing (R42). -/
theorem memRead_of_lt {m : Memory} {a : Nat} (h : a < vramSize) :
    memRead m a = Memory.read m a := by
  rw [memRead, Nat.mod_eq_of_lt h]

end Sys2Proof.Machine
end

