-- ==== Sys2Proof/Laws/State.lean ====
section
/-! SUPPORT. One lemma per field per state update, so that no proof unfolds a record update. -/

namespace Sys2Proof.Machine

variable (s : State)

@[simp] theorem State.setRegs_params (r : Vector Byte 8) : (s.setRegs r).params = s.params := rfl
@[simp] theorem State.setRegs_regs (r : Vector Byte 8) : (s.setRegs r).regs = r := rfl
@[simp] theorem State.setRegs_vram (r : Vector Byte 8) : (s.setRegs r).vram = s.vram := rfl
@[simp] theorem State.setRegs_raster (r : Vector Byte 8) : (s.setRegs r).raster = s.raster := rfl
@[simp] theorem State.setRegs_input (r : Vector Byte 8) : (s.setRegs r).input = s.input := rfl
@[simp] theorem State.setRegs_reply (r : Vector Byte 8) : (s.setRegs r).reply = s.reply := rfl

@[simp] theorem State.writeVram_params (o : Nat) (b : List Byte) :
    (s.writeVram o b).params = s.params := rfl
@[simp] theorem State.writeVram_regs (o : Nat) (b : List Byte) :
    (s.writeVram o b).regs = s.regs := rfl
@[simp] theorem State.writeVram_vram (o : Nat) (b : List Byte) :
    (s.writeVram o b).vram = Memory.writeBytes s.vram o b := rfl
@[simp] theorem State.writeVram_raster (o : Nat) (b : List Byte) :
    (s.writeVram o b).raster = s.raster := rfl
@[simp] theorem State.writeVram_input (o : Nat) (b : List Byte) :
    (s.writeVram o b).input = s.input := rfl
@[simp] theorem State.writeVram_reply (o : Nat) (b : List Byte) :
    (s.writeVram o b).reply = s.reply := rfl

@[simp] theorem State.respond_params (r : Reply) : (s.respond r).params = s.params := rfl
@[simp] theorem State.respond_regs (r : Reply) : (s.respond r).regs = s.regs := rfl
@[simp] theorem State.respond_vram (r : Reply) : (s.respond r).vram = s.vram := rfl
@[simp] theorem State.respond_raster (r : Reply) : (s.respond r).raster = s.raster := rfl
@[simp] theorem State.respond_input (r : Reply) : (s.respond r).input = s.input := rfl
@[simp] theorem State.respond_reply (r : Reply) : (s.respond r).reply = some r := rfl

@[simp] theorem State.succeed_params : s.succeed.params = s.params := rfl
@[simp] theorem State.succeed_regs : s.succeed.regs = s.regs := rfl
@[simp] theorem State.succeed_vram : s.succeed.vram = s.vram := rfl
@[simp] theorem State.succeed_raster : s.succeed.raster = s.raster := rfl
@[simp] theorem State.succeed_input : s.succeed.input = s.input := rfl
@[simp] theorem State.succeed_reply : s.succeed.reply = some (codeReply .ok) := rfl

@[simp] theorem State.raise_params (c : ResultCode) : (s.raise c).params = s.params := rfl
@[simp] theorem State.raise_regs (c : ResultCode) : (s.raise c).regs = s.regs := rfl
@[simp] theorem State.raise_vram (c : ResultCode) : (s.raise c).vram = s.vram := rfl
@[simp] theorem State.raise_raster (c : ResultCode) : (s.raise c).raster = s.raster := rfl
@[simp] theorem State.raise_input (c : ResultCode) : (s.raise c).input = s.input := rfl
@[simp] theorem State.raise_reply (c : ResultCode) : (s.raise c).reply = some (codeReply c) := rfl

@[simp] theorem State.setRaster_params (r : Option Raster) : (s.setRaster r).params = s.params := rfl
@[simp] theorem State.setRaster_regs (r : Option Raster) : (s.setRaster r).regs = s.regs := rfl
@[simp] theorem State.setRaster_vram (r : Option Raster) : (s.setRaster r).vram = s.vram := rfl
@[simp] theorem State.setRaster_raster (r : Option Raster) : (s.setRaster r).raster = r := rfl
@[simp] theorem State.setRaster_input (r : Option Raster) : (s.setRaster r).input = s.input := rfl
@[simp] theorem State.setRaster_reply (r : Option Raster) : (s.setRaster r).reply = s.reply := rfl

@[simp] theorem State.beginRender_params : s.beginRender.params = s.params := rfl
@[simp] theorem State.beginRender_regs : s.beginRender.regs = s.regs := rfl
@[simp] theorem State.beginRender_vram : s.beginRender.vram = s.vram := rfl
@[simp] theorem State.beginRender_raster : s.beginRender.raster = some Raster.start := rfl
@[simp] theorem State.beginRender_input : s.beginRender.input = s.input := rfl
@[simp] theorem State.beginRender_reply : s.beginRender.reply = s.reply := rfl

@[simp] theorem State.consume_params (r : List Byte) : (s.consume r).params = s.params := rfl
@[simp] theorem State.consume_regs (r : List Byte) : (s.consume r).regs = s.regs := rfl
@[simp] theorem State.consume_vram (r : List Byte) : (s.consume r).vram = s.vram := rfl
@[simp] theorem State.consume_raster (r : List Byte) : (s.consume r).raster = s.raster := rfl
@[simp] theorem State.consume_input (r : List Byte) : (s.consume r).input = r := rfl
@[simp] theorem State.consume_reply (r : List Byte) : (s.consume r).reply = s.reply := rfl

@[simp] theorem State.issue_params (b : List Byte) : (s.issue b).params = s.params := rfl
@[simp] theorem State.issue_regs (b : List Byte) : (s.issue b).regs = s.regs := rfl
@[simp] theorem State.issue_vram (b : List Byte) : (s.issue b).vram = s.vram := rfl
@[simp] theorem State.issue_raster (b : List Byte) : (s.issue b).raster = s.raster := rfl
@[simp] theorem State.issue_input (b : List Byte) : (s.issue b).input = s.input ++ b := rfl
@[simp] theorem State.issue_reply (b : List Byte) : (s.issue b).reply = s.reply := rfl

/-! ## The raster of a RENDER in progress -/

variable (p : Params) (d : Fields) (vram : Memory) (r : Raster)

@[simp] theorem enterPixel_y : (enterPixel p d vram r).y = r.y := by
  unfold enterPixel; split <;> rfl
@[simp] theorem enterPixel_x : (enterPixel p d vram r).x = r.x := by
  unfold enterPixel; split <;> rfl
@[simp] theorem enterPixel_pixels : (enterPixel p d vram r).pixels = r.pixels := by
  unfold enterPixel; split <;> rfl

@[simp] theorem emitPixel_y : (emitPixel p d vram r).y = r.y := rfl
@[simp] theorem emitPixel_x : (emitPixel p d vram r).x = r.x := rfl
@[simp] theorem emitPixel_line : (emitPixel p d vram r).line = r.line := rfl
@[simp] theorem emitPixel_acc : (emitPixel p d vram r).acc = r.acc := rfl
@[simp] theorem emitPixel_pixels : (emitPixel p d vram r).pixels =
    r.pixels ++ [pixelAt p d vram r.line.scol r.x r.y] := rfl

end Sys2Proof.Machine
end

