-- ==== Sys2Proof/Laws/Ops.lean ====
section
/-! SUPPORT. What each shared operation can do, said once. -/

namespace Sys2Proof.Machine

/-! ## Performing a transaction -/

theorem perform_of_none {s next : State} (h : s.raster = none) : perform s next = .next next := by
  simp [perform, h]

theorem perform_of_some {s next : State} {r : Raster} (h : s.raster = some r) :
    perform s next = .refused .renderInProgress := by
  simp [perform, h]

theorem perform_eq_next {s next t : State} :
    perform s next = .next t ↔ s.raster = none ∧ next = t := by
  cases h : s.raster <;> simp [perform, h]

theorem payloadRegs_eq_some {payload : List Byte} {regs : Vector Byte 8} :
    payloadRegs payload = some regs ↔ regs.toList = payload := by
  unfold payloadRegs
  split
  · next h =>
    simp only [Option.some.injEq]
    constructor
    · rintro rfl; simp [Vector.toList]
    · rintro rfl
      apply Vector.toList_inj.1
      simp [Vector.toList]
  · next h =>
    simp only [reduceCtorEq, false_iff]
    rintro rfl
    simp at h

theorem payloadRegs_eq_none {payload : List Byte} :
    payloadRegs payload = none ↔ payload.length ≠ 8 := by
  unfold payloadRegs
  split <;> simp_all

theorem vramOutOfRange_iff {offset : Half} {payload : List Byte} :
    vramOutOfRange offset payload = true ↔
      16383 < offset.toNat ∨ 16384 < offset.toNat + payload.length := by
  rw [vramOutOfRange, Bool.or_eq_true, decide_eq_true_eq, decide_eq_true_eq]
  exact Iff.rfl

/-- Everything the four transactions can answer with. -/
theorem exec_transaction_next {i : Instr} {s t : State} (hi : i.isModeRow = false)
    (h : exec i s = .next t) :
    s.raster = none ∧
      ((∃ payload regs, i = .setregs payload ∧ regs.toList = payload ∧
          t = (s.setRegs regs).succeed) ∨
       (∃ payload, i = .setregs payload ∧ payload.length ≠ 8 ∧ t = s.raise .invalidLength) ∨
       (∃ offset payload, i = .setvram offset payload ∧ offset.toNat + payload.length ≤ 16384 ∧
          offset.toNat ≤ 16383 ∧ t = (s.writeVram offset.toNat payload).succeed) ∨
       (∃ offset payload, i = .setvram offset payload ∧
          vramOutOfRange offset payload = true ∧ t = s.raise .outOfRange) ∨
       (∃ addr, i = .readvram addr ∧ t = s.respond (dataReply (readOperand s.vram addr))) ∨
       (i = .render ∧ t = s.respond (pictureReply (render s.params s.regs s.vram)))) := by
  cases i with
  | setregs payload =>
    obtain ⟨h1, h2⟩ := perform_eq_next.1 h
    refine ⟨h1, ?_⟩
    cases h3 : payloadRegs payload with
    | some regs => exact .inl ⟨payload, regs, rfl, payloadRegs_eq_some.1 h3, by simp [← h2, h3]⟩
    | none => exact .inr (.inl ⟨payload, rfl, payloadRegs_eq_none.1 h3, by simp [← h2, h3]⟩)
  | setvram offset payload =>
    obtain ⟨h1, h2⟩ := perform_eq_next.1 h
    refine ⟨h1, .inr (.inr ?_)⟩
    cases h3 : vramOutOfRange offset payload with
    | false =>
      have h4 := mt vramOutOfRange_iff.2 (h3 ▸ Bool.false_ne_true)
      exact .inl ⟨offset, payload, rfl, by omega, by omega, by simp [← h2, h3]⟩
    | true => exact .inr (.inl ⟨offset, payload, rfl, h3, by simp [← h2, h3]⟩)
  | readvram addr =>
    obtain ⟨h1, h2⟩ := perform_eq_next.1 h
    exact ⟨h1, .inr (.inr (.inr (.inr (.inl ⟨addr, rfl, h2.symm⟩))))⟩
  | render =>
    obtain ⟨h1, h2⟩ := perform_eq_next.1 h
    exact ⟨h1, .inr (.inr (.inr (.inr (.inr ⟨rfl, h2.symm⟩))))⟩
  | modeG1 | modeG1UndocM1M2 | modeG2 | modeMC | modeTX => cases hi

/-- No transaction reads the stream: performing it with other issued bytes changes only them. -/
theorem exec_transaction_consume {i : Instr} {s t : State} {bytes : List Byte}
    (hi : i.isModeRow = false) (h : exec i s = .next t) :
    exec i (s.consume bytes) = .next (t.consume bytes) := by
  cases i with
  | setregs payload =>
    obtain ⟨h1, rfl⟩ := perform_eq_next.1 h
    refine perform_eq_next.2 ⟨h1, ?_⟩
    cases payloadRegs payload <;> rfl
  | setvram offset payload =>
    obtain ⟨h1, rfl⟩ := perform_eq_next.1 h
    refine perform_eq_next.2 ⟨h1, ?_⟩
    cases vramOutOfRange offset payload <;> rfl
  | readvram addr =>
    obtain ⟨h1, rfl⟩ := perform_eq_next.1 h
    exact perform_eq_next.2 ⟨h1, rfl⟩
  | render =>
    obtain ⟨h1, rfl⟩ := perform_eq_next.1 h
    exact perform_eq_next.2 ⟨h1, rfl⟩
  | modeG1 | modeG1UndocM1M2 | modeG2 | modeMC | modeTX => cases hi

/-! ## Mode rows -/

/-- The mode a mode row makes its pixel in. -/
def rowMode (i : Instr) (s : State) : Mode :=
  match i with
  | .modeMC => .mc
  | .modeTX => .tx
  | .modeG2 => selectMode s.params.undoc (regM1 s.regs) (regM2 s.regs) true
  | .modeG1UndocM1M2 => s.params.undoc.m1m2
  | _ => .g1

/-- A mode row makes one pixel, in its own mode, of the RENDER in progress. -/
theorem exec_modeRow {i : Instr} {s : State} (hi : i.isModeRow = true) :
    exec i s = rasterStep (rowMode i s) s := by
  cases i <;> first | rfl | cases hi

theorem rasterStep_of_some {m : Mode} {s : State} {r : Raster} (h : s.raster = some r) :
    rasterStep m s = .next (rasterPixel m s r) := by
  simp [rasterStep, h]

theorem rasterStep_eq_next {m : Mode} {s t : State} :
    rasterStep m s = .next t ↔ ∃ r, s.raster = some r ∧ rasterPixel m s r = t := by
  cases h : s.raster <;> simp [rasterStep, h]

/-- Where the raster goes: the next column, the next scanline, or nowhere after (191, 255). -/
theorem nextPosition_cases (r : Raster) :
    (∃ hx : r.x.val + 1 < 256, nextPosition r = some { r with x := ⟨r.x.val + 1, hx⟩ }) ∨
    (r.x.val = 255 ∧ ∃ hy : r.y.val + 1 < 192, nextPosition r =
      some { r with y := ⟨r.y.val + 1, hy⟩, x := 0, line := LineState.start }) ∨
    (r.x.val = 255 ∧ r.y.val = 191 ∧ nextPosition r = none) := by
  unfold nextPosition
  split
  · next hx => exact .inl ⟨hx, rfl⟩
  · split
    · next hx hy => exact .inr (.inl ⟨by omega, hy, rfl⟩)
    · next hx hy => exact .inr (.inr ⟨by omega, by omega, rfl⟩)

section
variable (d : Fields) (r : Raster) (s : State)

@[simp] theorem advanceRaster_params : (advanceRaster d r s).params = s.params := by
  unfold advanceRaster; split <;> rfl
@[simp] theorem advanceRaster_regs : (advanceRaster d r s).regs = s.regs := by
  unfold advanceRaster; split <;> rfl
@[simp] theorem advanceRaster_vram : (advanceRaster d r s).vram = s.vram := by
  unfold advanceRaster; split <;> rfl
@[simp] theorem advanceRaster_input : (advanceRaster d r s).input = s.input := by
  unfold advanceRaster; split <;> rfl
@[simp] theorem rasterPixel_params (m : Mode) : (rasterPixel m s r).params = s.params := by
  simp [rasterPixel]
@[simp] theorem rasterPixel_regs (m : Mode) : (rasterPixel m s r).regs = s.regs := by
  simp [rasterPixel]
@[simp] theorem rasterPixel_vram (m : Mode) : (rasterPixel m s r).vram = s.vram := by
  simp [rasterPixel]
@[simp] theorem rasterPixel_input (m : Mode) : (rasterPixel m s r).input = s.input := by
  simp [rasterPixel]
end

/-! ## Fetching and stepping -/

theorem fetch_of_raster {s : State} {r : Raster} (h : s.raster = some r) :
    fetch s = .perform (decodeKey (modeKey s.regs)) s := by
  simp [fetch, h]

theorem fetch_of_decode {s : State} {i : Instr} {rest : List Byte} (h : s.raster = none)
    (hd : decode s.input = .ok (i, rest)) : fetch s = .perform i (s.consume rest) := by
  simp only [fetch, h, fetchTransaction]
  cases hin : s.input with
  | nil => simp [hin, decode] at hd
  | cons b bs => simp only [hin] at hd; simp [hd]

/-- Everything a step that goes on can be: idle, a transaction, or a mode row. -/
theorem step_cases {s t : State} (h : step s = .next t) :
    (s.raster = none ∧ s.input = [] ∧ t = s) ∨
    (∃ i rest, s.raster = none ∧ decode s.input = .ok (i, rest) ∧
      exec i (s.consume rest) = .next t) ∨
    (∃ r, s.raster = some r ∧ exec (decodeKey (modeKey s.regs)) s = .next t) := by
  cases hr : s.raster with
  | some r =>
    rw [step, fetch_of_raster hr] at h
    exact .inr (.inr ⟨r, rfl, h⟩)
  | none =>
    simp only [step, fetch, hr, fetchTransaction] at h
    cases hin : s.input with
    | nil =>
      simp only [hin, Host.Outcome.next.injEq] at h
      exact .inl ⟨rfl, rfl, h.symm⟩
    | cons b bs =>
      simp only [hin] at h
      cases hd : decode (b :: bs) with
      | error e => simp [hd] at h
      | ok r =>
        simp only [hd] at h
        exact .inr (.inl ⟨r.1, r.2, rfl, rfl, h⟩)

/-- A run of one more step of any machine, when that step goes on. -/
theorem run_succ {M : Host.Core} {n : Nat} {s t : M.State} (h : M.step s = .next t) :
    M.run (n + 1) s = M.run n t := by
  rw [Host.Core.run, h]

/-- A run of one more step of the block. -/
theorem core_run_succ {n : Nat} {s t : State} (h : step s = .next t) :
    Host.Core.run Sys2Proof.core (n + 1) s = Host.Core.run Sys2Proof.core n t :=
  run_succ (M := Sys2Proof.core) h

/-- What bytes decode to is a transaction, never a mode row. -/
theorem decode_isModeRow {bytes rest : List Byte} {i : Instr}
    (h : decode bytes = .ok (i, rest)) : i.isModeRow = false := by
  cases bytes with
  | nil => simp [decode] at h
  | cons b bs =>
    obtain ⟨-, h1⟩ | ⟨-, h1⟩ | ⟨-, h1⟩ | ⟨-, h1⟩ | ⟨-, h1⟩ := decode_cons b bs <;> rw [h1] at h
    · unfold decodeSetregs at h
      split at h <;> [split at h; skip] <;> first | (cases h; rfl) | cases h
    · unfold decodeSetvram at h
      split at h <;> [split at h; skip] <;> first | (cases h; rfl) | cases h
    · unfold decodeReadvram at h
      split at h <;> first | (cases h; rfl) | cases h
    · cases h; rfl
    · cases h

/-- What a mode key decodes to is a mode row. -/
theorem decodeKey_isModeRow (key : Half) : (decodeKey key).isModeRow = true := by
  unfold decodeKey
  split
  · rfl
  · split <;> rfl

end Sys2Proof.Machine
end

