-- ==== Sys2Proof/Laws/Sprites.lean ====
section
/-! SUPPORT. What the sprite engine's scan and drawing loops do (44_sprite_engine.md). -/

namespace Sys2Proof.Machine

/-! ## The scan of a line -/

/-- The scan adds to the sprites selected so far: the next in range up to four, and the one after
them as the fifth (R153, R155, R156). -/
theorem scanSprites_spec (d : Fields) (vram : Memory) (y : Nat) (is : List (Fin 32))
    (active : List ActiveSprite) (h : active.length ≤ 4) :
    let found := (is.takeWhile fun i => decide (spriteYByte d vram i ≠ sentinelY)).filter
      fun i => rowInRange d.extent (spriteRow y (spriteYByte d vram i))
    (scanSprites d vram y is active).1 = active ++
      (found.take (4 - active.length)).map
        (fun i => ⟨i, (spriteRow y (spriteYByte d vram i)).toNat⟩) ∧
    (scanSprites d vram y is active).2 = found[4 - active.length]? := by
  induction is generalizing active with
  | nil => simp [scanSprites]
  | cons i is ih =>
    simp only [scanSprites]
    split
    · next hy => simp [hy]
    · next hy =>
      simp only [hy, ne_eq, not_false_eq_true, decide_true, List.takeWhile_cons_of_pos]
      split
      · next hr =>
        simp only [hr, List.filter_cons_of_pos]
        split
        · next h4 => simp [h4]
        · next h4 =>
          have h5 : active.length + 1 ≤ 4 := by omega
          obtain ⟨ih1, ih2⟩ := ih
            (active ++ [⟨i, (spriteRow y (spriteYByte d vram i)).toNat⟩]) (by simpa using h5)
          have h6 : 4 - active.length = (4 - (active.length + 1)) + 1 := by omega
          rw [ih1, ih2, h6]
          simp
      · next hr =>
        rw [List.filter_cons_of_neg (by simpa using hr)]
        exact ih active h

/-- A line never has more than four active sprites, in strictly increasing index order (R156). -/
theorem scanLine_activeOk (d : Fields) (vram : Memory) (y : Nat) :
    activeOk (scanLine d vram y).1 := by
  obtain ⟨h1, -⟩ := scanSprites_spec d vram y (List.finRange 32) [] (by simp)
  simp only [scanLine, h1, List.nil_append, List.length_nil, Nat.sub_zero]
  refine ⟨by simp, List.pairwise_map.2 ?_⟩
  refine List.Pairwise.sublist ?_ (List.pairwise_lt_finRange 32)
  exact (List.take_sublist _ _).trans ((List.filter_sublist).trans (List.takeWhile_sublist _))

/-! ## Drawing -/

theorem getElem_ite_set {α : Type} {n : Nat} (c : Prop) [Decidable c] (v : Vector α n)
    (i j : Fin n) (x : α) :
    (if c then v.set i.val x i.isLt else v)[j] = if c ∧ i = j then x else v[j] := by
  by_cases hc : c
  · simp only [hc, if_true, true_and, Fin.getElem_fin, Vector.getElem_set, Fin.ext_iff]
  · simp [hc]

/-- The flags of a covered pixel: the sprite is opaque, or transparent sprites collide (R162). -/
def collidesIn (p : Params) (colour : Colour) : Bool :=
  decide (colour ≠ 0#4) || p.transparentCollides

theorem coverPixel_cover (p : Params) (colour : Colour) (sx sx' : Fin 256) (b : Paint) :
    (coverPixel p colour sx b).cover[sx'] =
      (b.cover[sx'] || (decide (sx = sx') && collidesIn p colour)) := by
  refine (getElem_ite_set _ b.cover sx sx' true).trans ?_
  show (if collidesIn p colour = true ∧ sx = sx' then true else b.cover[sx']) = _
  split
  · next h => simp [h.1, h.2]
  · next h =>
    have h' : (decide (sx = sx') && collidesIn p colour) = false := by
      simp only [Bool.and_eq_false_iff, decide_eq_false_iff_not]
      by_cases hs : sx = sx'
      · exact .inr (by simpa [hs] using h)
      · exact .inl hs
    rw [h', Bool.or_false]

theorem coverPixel_scol (p : Params) (colour : Colour) (sx sx' : Fin 256) (b : Paint) :
    (coverPixel p colour sx b).scol[sx'] =
      if sx = sx' ∧ b.scol[sx'] = 0#4 then colour else b.scol[sx'] := by
  refine (getElem_ite_set _ b.scol sx sx' colour).trans ?_
  by_cases hs : sx = sx'
  · subst hs
    by_cases hz : b.scol[sx] = 0#4
    · by_cases hc : colour = 0#4
      · simp only [hz, hc, ne_eq, not_true_eq_false, decide_false, Bool.false_and,
          Bool.false_eq_true, false_and, if_false, and_self, if_true]
      · simp only [hz, hc, ne_eq, not_false_eq_true, decide_true, Bool.and_self, and_self, if_true]
    · simp only [hz, decide_false, Bool.and_false, Bool.false_eq_true, false_and, and_false,
        if_false]
  · simp only [hs, and_false, false_and, if_false]

theorem coverPixel_hit (p : Params) (colour : Colour) (sx : Fin 256) (b : Paint) :
    (coverPixel p colour sx b).hit = (b.hit || (collidesIn p colour && b.cover[sx])) := rfl

/-- Column `sx` lies among the first `n` displayed columns and its source bit is 1. -/
def coversUpTo (d : Fields) (left : Int) (bits : BitVec 16) (n : Nat) (sx : Fin 256) : Bool :=
  decide (0 ≤ (sx.val : Int) - left) && decide ((sx.val : Int) - left < (n : Int)) &&
    sourceBit d bits ((sx.val : Int) - left).toNat

theorem coversUpTo_eq_true {d : Fields} {left : Int} {bits : BitVec 16} {n : Nat}
    {sx : Fin 256} : coversUpTo d left bits n sx = true ↔
      left ≤ sx.val ∧ (sx.val : Int) < left + n ∧
        sourceBit d bits ((sx.val : Int) - left).toNat = true := by
  simp only [coversUpTo, Bool.and_eq_true, decide_eq_true_eq, and_assoc]
  constructor
  · rintro ⟨h1, h2, h3⟩; exact ⟨by omega, by omega, h3⟩
  · rintro ⟨h1, h2, h3⟩; exact ⟨by omega, by omega, h3⟩

theorem coversUpTo_succ {d : Fields} {left : Int} {bits : BitVec 16} {n : Nat} {sx : Fin 256} :
    coversUpTo d left bits (n + 1) sx = true ↔ coversUpTo d left bits n sx = true ∨
      ((sx.val : Int) = left + n ∧ sourceBit d bits n = true) := by
  rw [coversUpTo_eq_true, coversUpTo_eq_true]
  constructor
  · rintro ⟨h1, h2, h3⟩
    by_cases h : (sx.val : Int) = left + n
    · rw [show ((sx.val : Int) - left).toNat = n by omega] at h3
      exact .inr ⟨h, h3⟩
    · exact .inl ⟨h1, by omega, h3⟩
  · rintro (⟨h1, h2, h3⟩ | ⟨h1, h2⟩)
    · exact ⟨h1, by omega, h3⟩
    · refine ⟨by omega, by omega, ?_⟩
      rwa [show ((sx.val : Int) - left).toNat = n by omega]

/-- One turn of the pixel loop: nothing, or the one column it reaches is covered (R161). -/
theorem drawPixel_cases (p : Params) (d : Fields) (left : Int) (bits : BitVec 16)
    (colour : Colour) (b : Paint) (px : Nat) :
    (∃ sx : Fin 256, (sx.val : Int) = left + px ∧ sourceBit d bits px = true ∧
      drawPixel p d left bits colour b px = coverPixel p colour sx b) ∨
    ((∀ sx : Fin 256, ¬((sx.val : Int) = left + px ∧ sourceBit d bits px = true)) ∧
      drawPixel p d left bits colour b px = b) := by
  unfold drawPixel
  by_cases h : 0 ≤ left + (px : Int) ∧ left + (px : Int) ≤ 255
  · cases hb : sourceBit d bits px with
    | true => exact .inl ⟨⟨(left + px).toNat, by omega⟩, by simp; omega, rfl, by simp [h]⟩
    | false => exact .inr ⟨by simp, by simp⟩
  · refine .inr ⟨fun sx h1 => ?_, by simp [h]⟩
    have := sx.isLt
    omega

/-- `after` is `before` with the columns of `cov` covered by a sprite (R162 to R165). -/
structure Painted (p : Params) (colour : Colour) (cov : Fin 256 → Prop) (before after : Paint) :
    Prop where
  cover : ∀ sx : Fin 256, after.cover[sx] = true ↔
    before.cover[sx] = true ∨ (cov sx ∧ collidesIn p colour = true)
  shown : ∀ sx : Fin 256, cov sx → before.scol[sx] = 0#4 → after.scol[sx] = colour
  kept : ∀ sx : Fin 256, ¬(cov sx ∧ before.scol[sx] = 0#4) → after.scol[sx] = before.scol[sx]
  hit : after.hit = true ↔ before.hit = true ∨
    ∃ sx : Fin 256, cov sx ∧ collidesIn p colour = true ∧ before.cover[sx] = true

/-- The pixel loop of one sprite over its first `n` columns (R161 to R165). -/
theorem drawPixels_painted (p : Params) (d : Fields) (left : Int) (bits : BitVec 16)
    (colour : Colour) (b : Paint) (n : Nat) :
    Painted p colour (fun sx => coversUpTo d left bits n sx = true) b
      ((List.range n).foldl (drawPixel p d left bits colour) b) := by
  induction n with
  | zero =>
    have h0 : ∀ sx : Fin 256, ¬coversUpTo d left bits 0 sx = true := by
      intro sx h
      obtain ⟨h1, h2, -⟩ := coversUpTo_eq_true.1 h
      push_cast at h2
      omega
    exact ⟨by simp [h0], by simp [h0], by simp, by simp [h0]⟩
  | succ n ih =>
    rw [show (List.range (n + 1)).foldl (drawPixel p d left bits colour) b =
      drawPixel p d left bits colour ((List.range n).foldl (drawPixel p d left bits colour) b) n by
        simp [List.range_succ]]
    generalize (List.range n).foldl (drawPixel p d left bits colour) b = b' at ih ⊢
    obtain ⟨sx, hsx, hbit, hdraw⟩ | ⟨hno, hdraw⟩ := drawPixel_cases p d left bits colour b' n
    · have hcol : ∀ sx', coversUpTo d left bits (n + 1) sx' = true ↔
          coversUpTo d left bits n sx' = true ∨ sx = sx' := by
        intro sx'
        rw [coversUpTo_succ, Fin.ext_iff]
        have : ((sx'.val : Int) = left + n ∧ sourceBit d bits n = true) ↔ sx.val = sx'.val := by
          constructor
          · rintro ⟨h, -⟩; omega
          · intro h; exact ⟨by omega, hbit⟩
        rw [this]
      have hfresh : ¬coversUpTo d left bits n sx = true := by
        intro h
        obtain ⟨-, h2, -⟩ := coversUpTo_eq_true.1 h
        omega
      rw [hdraw]
      refine ⟨fun sx' => ?_, fun sx' h1 h2 => ?_, fun sx' h => ?_, ?_⟩
      · rw [coverPixel_cover, Bool.or_eq_true, ih.cover, Bool.and_eq_true, decide_eq_true_eq, hcol]
        tauto
      · rw [coverPixel_scol]
        obtain h1 | rfl := (hcol sx').1 h1
        · have h3 := ih.shown sx' h1 h2
          split
          · rfl
          · exact h3
        · rw [if_pos ⟨rfl, (ih.kept sx (fun h => hfresh h.1)).trans h2⟩]
      · rw [coverPixel_scol]
        have h3 : b'.scol[sx'] = b.scol[sx'] :=
          ih.kept sx' fun h1 => h ⟨(hcol sx').2 (.inl h1.1), h1.2⟩
        rw [if_neg, h3]
        rintro ⟨rfl, h4⟩
        exact h ⟨(hcol sx).2 (.inr rfl), h3.symm.trans h4⟩
      · rw [coverPixel_hit, Bool.or_eq_true, ih.hit, Bool.and_eq_true, ih.cover]
        constructor
        · rintro ((h | ⟨sx', h1, h2, h3⟩) | ⟨h1, h2 | h2⟩)
          · exact .inl h
          · exact .inr ⟨sx', (hcol sx').2 (.inl h1), h2, h3⟩
          · exact .inr ⟨sx, (hcol sx).2 (.inr rfl), h1, h2⟩
          · exact absurd h2.1 hfresh
        · rintro (h | ⟨sx', h1, h2, h3⟩)
          · exact .inl (.inl h)
          · obtain h1 | rfl := (hcol sx').1 h1
            · exact .inl (.inr ⟨sx', h1, h2, h3⟩)
            · exact .inr ⟨h2, .inl h3⟩
    · rw [hdraw]
      have hcol : ∀ sx', coversUpTo d left bits (n + 1) sx' = true ↔
          coversUpTo d left bits n sx' = true := by
        intro sx'
        rw [coversUpTo_succ]
        exact or_iff_left (hno sx')
      simpa only [hcol] using ih

/-- One sprite drawn on a line: what it covers, what it shows, what it hits (R161 to R165). -/
theorem drawSprite_painted (p : Params) (d : Fields) (vram : Memory) (b : Paint)
    (a : ActiveSprite) :
    Painted p (spriteColour d vram a.index) (fun sx => spriteCovers p d vram a sx = true) b
      (drawSprite p d vram b a) :=
  drawPixels_painted p d (spriteLeft p d vram a.index)
    (spriteBits d vram a.index (sourceRow d a.row)) (spriteColour d vram a.index) b d.extent

/-! ## The line -/

/-- The sprite state of a line does not depend on the accumulators (R169). -/
theorem lineSprites_line (p : Params) (d : Fields) (vram : Memory) (y : Nat)
    (acc acc' : FrameAcc) :
    (lineSprites p d vram y acc).1 = (lineSprites p d vram y acc').1 := by
  unfold lineSprites
  split <;> rfl

theorem lineSprites_scol (p : Params) (d : Fields) (vram : Memory) (y : Nat) (acc : FrameAcc) :
    (lineSprites p d vram y acc).1.scol = spriteLayer p d vram y :=
  congrArg LineState.scol (lineSprites_line p d vram y acc FrameAcc.start)

theorem lineSprites_activeOk (p : Params) (d : Fields) (vram : Memory) (y : Nat)
    (acc : FrameAcc) : activeOk (lineSprites p d vram y acc).1.active := by
  unfold lineSprites
  split
  · exact scanLine_activeOk d vram y
  · exact ⟨by simp [LineState.start], by simp [LineState.start]⟩

/-- The accumulators after a line hold no fifth-sprite number without an overflow. -/
theorem lineSprites_fsn (p : Params) (d : Fields) (vram : Memory) (y : Nat) (acc : FrameAcc)
    (h : acc.acc5S = false → acc.accFSN = 0#5) :
    (lineSprites p d vram y acc).2.acc5S = false →
      (lineSprites p d vram y acc).2.accFSN = 0#5 := by
  unfold lineSprites
  split
  · simp only [spriteLine, latchCollision, latchOverflow]
    split
    · exact h
    · split
      · exact h
      · simp
  · exact h

end Sys2Proof.Machine
end

