-- ==== Sys2Proof/Laws/Frame.lean ====
section
/-! SUPPORT. The frame of a RENDER (46_host_interface.md R187, 45_palette_compositor.md R180). -/

namespace Sys2Proof.Machine

variable (p : Params) (d : Fields) (vram : Memory)

@[simp] theorem frameRow_length (scol : Vector Colour 256) (y : Fin 192) :
    (frameRow p d vram scol y).length = 256 := by
  simp [frameRow]

@[simp] theorem frameRow_getElem? (scol : Vector Colour 256) (y : Fin 192) (x : Fin 256) :
    (frameRow p d vram scol y)[x.val]? = some (pixelAt p d vram scol x y) := by
  simp [frameRow]

/-- The pixels of some scanlines, line after line, whatever the accumulators. -/
theorem renderLines_frame (ys : List (Fin 192)) (acc : FrameAcc) :
    (renderLines p d vram ys acc).1 =
      ys.flatMap fun y => frameRow p d vram (spriteLayer p d vram y.val) y := by
  induction ys generalizing acc with
  | nil => rfl
  | cons y ys ih => simp [renderLines, ih, lineSprites_scol]

/-- The accumulators after some scanlines, line after line. -/
theorem renderLines_acc (ys : List (Fin 192)) (acc : FrameAcc) :
    (renderLines p d vram ys acc).2 =
      ys.foldl (fun a y => (lineSprites p d vram y.val a).2) acc := by
  induction ys generalizing acc with
  | nil => rfl
  | cons y ys ih => simp [renderLines, ih]

/-- An element of lists of one length joined together. -/
theorem getElem?_flatMap_uniform {α β : Type} {f : α → List β} {n : Nat}
    (hf : ∀ a, (f a).length = n) (l : List α) (k x : Nat) (hx : x < n) :
    (l.flatMap f)[k * n + x]? = l[k]?.bind fun a => (f a)[x]? := by
  induction l generalizing k with
  | nil => simp
  | cons a l ih =>
    cases k with
    | zero => simp [List.getElem?_append_left, hf, hx]
    | succ k =>
      rw [List.flatMap_cons, List.getElem?_append_right (by rw [hf]; nlinarith), hf,
        show (k + 1) * n + x - n = k * n + x by rw [Nat.succ_mul]; omega, ih]
      rfl

theorem renderFields_frame :
    (renderFields p d vram).frame =
      (List.finRange 192).flatMap fun y => frameRow p d vram (spriteLayer p d vram y.val) y :=
  renderLines_frame p d vram _ _

/-- Element `y*256 + x` of the frame is pixel (x, y) (R180). -/
theorem renderFields_getElem? (x : Fin 256) (y : Fin 192) :
    (renderFields p d vram).frame[y.val * 256 + x.val]? =
      some (pixelAt p d vram (spriteLayer p d vram y.val) x y) := by
  rw [renderFields_frame, getElem?_flatMap_uniform (fun _ => frameRow_length ..) _ _ _ x.isLt,
    show (List.finRange 192)[y.val]? = some y by simp]
  exact frameRow_getElem? p d vram _ y x

theorem flatMap_length_uniform {α β : Type} {f : α → List β} {n : Nat}
    (hf : ∀ a, (f a).length = n) (l : List α) : (l.flatMap f).length = l.length * n := by
  induction l with
  | nil => simp
  | cons a l ih => simp [hf, ih, Nat.succ_mul, Nat.add_comm]

theorem renderFields_length : (renderFields p d vram).frame.length = 49152 := by
  rw [renderFields_frame, flatMap_length_uniform (fun _ => frameRow_length ..)]
  simp

/-- One more pixel of the frame, in raster order (R180). -/
theorem render_frame_take_succ (regs : Vector Byte 8) (x : Fin 256) (y : Fin 192) :
    (render p regs vram).frame.take (y.val * 256 + x.val + 1) =
      (render p regs vram).frame.take (y.val * 256 + x.val) ++
        [pixelAt p (decodeRegs p regs) vram
          (spriteLayer p (decodeRegs p regs) vram y.val) x y] := by
  rw [List.take_add_one, render, renderFields_getElem?]
  rfl

/-- The accumulators after one more scanline. -/
theorem accAfter_succ (y : Fin 192) :
    accAfter p d vram (y.val + 1) = (lineSprites p d vram y.val (accAfter p d vram y.val)).2 := by
  have h : (List.finRange 192)[y.val]? = some y := by simp
  rw [accAfter, List.take_add_one, h, List.foldl_append]
  rfl

/-- The accumulators hold no fifth-sprite number without an overflow. -/
theorem accAfter_fsn (n : Nat) :
    (accAfter p d vram n).acc5S = false → (accAfter p d vram n).accFSN = 0#5 := by
  suffices h : ∀ (l : List (Fin 192)) (a : FrameAcc), (a.acc5S = false → a.accFSN = 0#5) →
      (l.foldl (fun a y => (lineSprites p d vram y.val a).2) a).acc5S = false →
      (l.foldl (fun a y => (lineSprites p d vram y.val a).2) a).accFSN = 0#5 from
    h _ _ fun _ => rfl
  intro l
  induction l with
  | nil => exact fun _ h => h
  | cons y l ih => exact fun a h => ih _ (lineSprites_fsn p d vram y.val a h)

/-- After the last scanline they are the accumulators of the picture. -/
theorem renderFields_acc :
    (renderLines p d vram (List.finRange 192) FrameAcc.start).2 = accAfter p d vram 192 := by
  rw [renderLines_acc, accAfter, List.take_of_length_le (by simp)]

/-! ## The status byte -/

@[simp] theorem statusByte_F (acc : FrameAcc) : (statusByte acc).getLsbD 7 = true := by
  simp [statusByte, flagAt]

theorem intOutput_statusByte (acc : FrameAcc) (ie : Bool) :
    intOutput (statusByte acc) ie = ie := by
  simp [intOutput]

theorem finishPicture_inv {d : Fields} {frame : List Rgb} {acc : FrameAcc}
    (h : frame.length = 49152) : (finishPicture d frame acc).Inv :=
  ⟨h, statusByte_F acc⟩

/-! ## One pixel of a RENDER in progress -/

/-- The pixel a mode row adds. -/
theorem madePixel_pixels (s : State) (r : Raster) :
    (madePixel d s r).pixels = r.pixels ++
      [paletteRgb s.params (compose (spriteAtRaster s.params d s.vram r)
        (background s.params d s.vram r.x.val r.y.val) d.bd)] := by
  simp only [madePixel, emitPixel_pixels, enterPixel_pixels, enterPixel_x, enterPixel_y, pixelAt,
    pixelIndex]
  congr 5
  unfold enterPixel spriteAtRaster
  split
  · simp only [lineSprites_scol]
  · rfl

@[simp] theorem madePixel_x (s : State) (r : Raster) : (madePixel d s r).x = r.x := by
  simp [madePixel]
@[simp] theorem madePixel_y (s : State) (r : Raster) : (madePixel d s r).y = r.y := by
  simp [madePixel]

/-- The line's sprite state once a pixel of it is made, in a RENDER with the invariant. -/
theorem madePixel_line {s : State} {r : Raster} (h : r.Inv s.params s.regs s.vram) :
    (madePixel (decodeRegs s.params s.regs) s r).line =
      (lineSprites s.params (decodeRegs s.params s.regs) s.vram r.y.val FrameAcc.start).1 := by
  simp only [madePixel, emitPixel_line, enterPixel]
  split
  · exact lineSprites_line ..
  · next hx => rw [h.line, if_neg hx]

/-- The accumulators once a pixel of the line is made, in a RENDER with the invariant. -/
theorem madePixel_acc {s : State} {r : Raster} (h : r.Inv s.params s.regs s.vram) :
    (madePixel (decodeRegs s.params s.regs) s r).acc =
      accAfter s.params (decodeRegs s.params s.regs) s.vram (r.y.val + 1) := by
  simp only [madePixel, emitPixel_acc, enterPixel]
  split
  · next hx =>
    rw [accAfter_succ]
    simp only
    rw [h.acc, if_pos hx]
  · next hx => rw [h.acc, if_neg hx]

/-- Whatever comes after a pixel, it has joined the pixels of the RENDER. -/
theorem pixelsSoFar_rasterPixel (m : Mode) (s : State) (r : Raster) :
    pixelsSoFar (rasterPixel m s r) = (madePixel (decodeAs m s.regs) s r).pixels := by
  simp only [rasterPixel, advanceRaster]
  obtain ⟨hx, h⟩ | ⟨-, hy, h⟩ | ⟨-, -, h⟩ := nextPosition_cases (madePixel (decodeAs m s.regs) s r)
  all_goals rw [h]
  · simp [pixelsSoFar]
  · simp [pixelsSoFar]
  · simp [pixelsSoFar, pictureReply, finishPicture]

end Sys2Proof.Machine
end

