-- ==== Sys2Proof/Laws/PerInstr.lean ====
section
/-! SUPPORT. Per-instruction families: one lemma per constructor of Instr. -/

namespace Sys2Proof.Laws.EncodeLength

/-- The spelling of an instruction is as long as 30_encoding.md R82 says: 3 + LEN,
5 + LEN, 3 and 1 bytes for the transactions, two bytes for a mode key. -/
def Statement (i : Sys2Proof.Instr) : Prop :=
  (Sys2Proof.encode i).toBytes.length = i.length

theorem setregs (payload : List Sys2Proof.Byte) : Statement (.setregs payload) := by
  simp [Statement, encode, Code.toBytes, payloadBytes, halfBytes, Instr.length]
  omega

theorem setvram (offset : Sys2Proof.Half) (payload : List Sys2Proof.Byte) :
    Statement (.setvram offset payload) := by
  simp [Statement, encode, Code.toBytes, payloadBytes, halfBytes, Instr.length]
  omega

theorem readvram (addr : Sys2Proof.Half) : Statement (.readvram addr) := rfl
theorem render : Statement .render := rfl
theorem modeG1 : Statement .modeG1 := rfl
theorem modeG1UndocM1M2 : Statement .modeG1UndocM1M2 := rfl
theorem modeG2 : Statement .modeG2 := rfl
theorem modeMC : Statement .modeMC := rfl
theorem modeTX : Statement .modeTX := rfl

end Sys2Proof.Laws.EncodeLength
end

