-- ==== Sys2Proof/Tests/Slice0.lean ====
section
/-! SUPPORT. The model's own tests: expected results come from 30_encoding.md and from the vectors of
95_test_vectors.md, named in each test's comment. Last, a witness for every obligation that has
hypotheses. -/

namespace Sys2Proof.Tests

open Sys2Proof Sys2Proof.Machine

/-! ## Helpers -/

/-- The next state, where there is one. -/
def nextOf (o : Host.Outcome State Fault Refusal) : Option State :=
  match o with
  | .next s => some s
  | .fault _ => none
  | .refused _ => none

/-- The refusal, where there is one. -/
def refusalOf (o : Host.Outcome State Fault Refusal) : Option Refusal :=
  match o with
  | .next _ => none
  | .fault _ => none
  | .refused r => some r

/-- The reset state with other registers and VRAM. -/
def withRegsVram (regs : Vector Byte 8) (vram : Memory) : State :=
  { State.reset with regs := regs, vram := vram }

/-- That state with a RENDER in progress at a raster position, its line without sprites. -/
def rendering (regs : Vector Byte 8) (vram : Memory) (x : Fin 256) (y : Fin 192) : State :=
  { withRegsVram regs vram with raster := some { Raster.start with x := x, y := y } }

/-- The colour a palette entry of the default palette shows. -/
def shown (k : Colour) : Rgb :=
  referencePalette[k.toNat]

/-- The pixels a mode row leaves behind it. -/
def pixelsAfter (i : Instr) (s : State) : Option (List Rgb) :=
  (nextOf (exec i s)).map pixelsSoFar

/-- The reply after an instruction. -/
def replyAfter (i : Instr) (s : State) : Option Reply :=
  (nextOf (exec i s)).bind fun t => t.reply

/-! ## Well-formedness: a payload longer than LEN can say is refused (R81) -/

theorem test_wf_setregs_too_long :
    Instr.wf (.setregs (List.replicate 65536 0x00#8)) = false := by
  rw [Instr.wf, payloadFits, List.length_replicate]; decide

theorem test_wf_setvram_too_long :
    Instr.wf (.setvram 0x0000#16 (List.replicate 65536 0x00#8)) = false := by
  rw [Instr.wf, payloadFits, List.length_replicate]; decide

theorem test_wf_setregs_longest :
    Instr.wf (.setregs (List.replicate 65535 0x00#8)) = true := by
  rw [Instr.wf, payloadFits, List.length_replicate]; decide

/-! ## Decoding: words written out from R80, R81 and R71 -/

/-- H1's encoding: 00 08 00 b0..b7. -/
theorem test_decode_setregs :
    decode [0x00#8, 0x08#8, 0x00#8, 1#8, 2#8, 3#8, 4#8, 5#8, 6#8, 7#8, 8#8] =
      .ok (.setregs [1#8, 2#8, 3#8, 4#8, 5#8, 6#8, 7#8, 8#8], []) := rfl

/-- H4's encoding: 01 FF 3F 01 00 55. -/
theorem test_decode_setvram :
    decode [0x01#8, 0xFF#8, 0x3F#8, 0x01#8, 0x00#8, 0x55#8] =
      .ok (.setvram 0x3FFF#16 [0x55#8], []) := rfl

/-- P4's READVRAM 0x7FFE, followed by a RENDER. -/
theorem test_decode_readvram :
    decode [0x02#8, 0xFE#8, 0x7F#8, 0x03#8] = .ok (.readvram 0x7FFE#16, [0x03#8]) := rfl

theorem test_decode_render : decode [0x03#8] = .ok (.render, []) := rfl

/-- H13. -/
theorem test_decode_reserved : decode [0x04#8] = .error (.reservedHeader 0x04#8) := rfl

/-- P4's SETVRAM 0x3FFE with its last byte missing. -/
theorem test_decode_incomplete :
    decode [0x01#8, 0xFE#8, 0x3F#8, 0x02#8, 0x00#8, 0x01#8] = .error .incomplete := rfl

/-- DEC1: K & 0x1802 = 0x0000. -/
theorem test_decode_modeG1 : decodeKey 0xC000#16 = .modeG1 := by decide
/-- DEC8: K & 0x1802 = 0x1800. -/
theorem test_decode_modeG1UndocM1M2 : decodeKey 0xD800#16 = .modeG1UndocM1M2 := by decide
/-- DEC2: K = 0xC002. -/
theorem test_decode_modeG2 : decodeKey 0xC002#16 = .modeG2 := by decide
/-- DEC9: M1 = M2 = M3 = 1. -/
theorem test_decode_modeG2_undocumented : decodeKey 0xD802#16 = .modeG2 := by decide
/-- DEC6: K & 0x1802 = 0x0800. -/
theorem test_decode_modeMC : decodeKey 0xC800#16 = .modeMC := by decide
/-- DEC7: K & 0x1802 = 0x1000. -/
theorem test_decode_modeTX : decodeKey 0xD000#16 = .modeTX := by decide

/-- The match words of the opcode table, in its own numbering. -/
theorem test_table_words :
    decodeTableWord 8 0 = some (.setregs []) ∧
    decodeTableWord 8 1 = some (.setvram 0x0000#16 []) ∧
    decodeTableWord 8 2 = some (.readvram 0x0000#16) ∧
    decodeTableWord 8 3 = some .render ∧
    decodeTableWord 16 0x0000 = some .modeG1 ∧
    decodeTableWord 16 0x1800 = some .modeG1UndocM1M2 ∧
    decodeTableWord 16 0x0002 = some .modeG2 ∧
    decodeTableWord 16 0x0800 = some .modeMC ∧
    decodeTableWord 16 0x1000 = some .modeTX := by decide

/-- A table word placed after reset runs as the next step. -/
theorem test_table_words_run :
    (nextOf (step (State.reset.withFetchWord 8 0))).isSome = true ∧
    (nextOf (step (State.reset.withFetchWord 8 1))).isSome = true ∧
    (nextOf (step (State.reset.withFetchWord 8 2))).isSome = true ∧
    (nextOf (step (State.reset.withFetchWord 8 3))).isSome = true ∧
    (nextOf (step (State.reset.withFetchWord 16 0x0000))).isSome = true ∧
    (nextOf (step (State.reset.withFetchWord 16 0x1800))).isSome = true ∧
    (nextOf (step (State.reset.withFetchWord 16 0x0002))).isSome = true ∧
    (nextOf (step (State.reset.withFetchWord 16 0x0800))).isSome = true ∧
    (nextOf (step (State.reset.withFetchWord 16 0x1000))).isSome = true := by decide

/-- P4's third line as text, and its byte encoding. -/
theorem test_assemble_setvram :
    (parseLine "SETVRAM 0x3FFF, [0x01, 0x02]   ; OutOfRange".toList).map (fun l => assemble [l]) =
      some [0x01#8, 0xFF#8, 0x3F#8, 0x02#8, 0x00#8, 0x01#8, 0x02#8] := by decide

/-- P2's FILLVRAM 0x1008, 8, 0xFF as text, and its byte encoding. -/
theorem test_assemble_fillvram :
    (parseLine "FILLVRAM 0x1008, 8, 0xFF".toList).map (fun l => assemble [l]) =
      some ([0x01#8, 0x08#8, 0x10#8, 0x08#8, 0x00#8] ++ List.replicate 8 0xFF#8) := by decide

/-! ## The transactions -/

/-- H1. -/
theorem test_setregs_writes :
    (nextOf (exec (.setregs [0x00#8, 0xC0#8, 0x00#8, 0x10#8, 0x01#8, 0x0A#8, 0x00#8, 0x07#8])
      State.reset)).map (fun t => (t.regs[1], t.regs[7])) = some (0xC0#8, 0x07#8) := by decide

/-- P4 step 2: seven bytes are InvalidLength (1) and change no register. -/
theorem test_setregs_seven :
    (nextOf (exec (.setregs (List.replicate 7 0x01#8)) State.reset)).map
      (fun t => (t.regs, t.reply.map fun r => r.code.number)) =
      some (State.reset.regs, some 1) := by decide

/-- H4. -/
theorem test_setvram_top :
    (nextOf (exec (.setvram 0x3FFF#16 [0x55#8]) State.reset)).map (fun t => memRead t.vram 0x3FFF) =
      some 0x55#8 := by decide

/-- H5: over the end by one byte is OutOfRange (2) and writes nothing. -/
theorem test_setvram_over :
    (nextOf (exec (.setvram 0x3FFF#16 [0x01#8, 0x02#8]) State.reset)).map
      (fun t => (t.vram, t.reply.map fun r => r.code.number)) = some ([], some 2) := by decide

/-- H10. -/
theorem test_readvram_wraps :
    (replyAfter (.readvram 0x4000#16) (withRegsVram referenceRegs [(0, 0x12#8)])).bind
      (fun r => r.data) = some 0x12#8 := by decide

/-- H11. -/
theorem test_readvram_last :
    (replyAfter (.readvram 0xFFFF#16) (withRegsVram referenceRegs [(0x3FFF, 0x34#8)])).bind
      (fun r => r.data) = some 0x34#8 := by decide

/-- H12 with the sentinel in entry 0: F and INT are 1. -/
theorem test_render_int :
    ((replyAfter .render (withRegsVram
      #v[0x00#8, 0xE0#8, 0x00#8, 0x10#8, 0x01#8, 0x0A#8, 0x00#8, 0x07#8] [(0x500, 0xD0#8)])).bind
        (fun r => r.picture)).map (fun p => (p.status, p.int)) = some (0x80#8, true) := by decide +kernel

/-- SP16: with VRAM all zero sprites 0 to 4 are in range on line 1. -/
theorem test_render_status :
    ((replyAfter .render (withRegsVram
      #v[0x00#8, 0xC0#8, 0x00#8, 0x00#8, 0x00#8, 0x00#8, 0x00#8, 0x07#8] [])).bind
        (fun r => r.picture)).map (fun p => p.status) = some 0xC4#8 := by decide +kernel

/-! ## The mode rows -/

/-- Graphics I with the display enabled, tables as in 95_test_vectors.md section 5. -/
def regsG1 : Vector Byte 8 :=
  #v[0x00#8, 0xC0#8, 0x00#8, 0x10#8, 0x01#8, 0x0A#8, 0x02#8, 0x07#8]

/-- BG2: pattern byte 0x81, colour byte 0xF4; cbit 7 shows 15. -/
theorem test_modeG1_last_column :
    pixelsAfter .modeG1 (rendering regsG1 [(0x400, 0xF4#8), (0x800, 0x81#8)] 7 0) =
      some [shown 15#4] := by decide

/-- P2: on line 32 sprite 0 (colour 6) hides sprite 1 (colour 2) in columns 68-71, and collides
with it. -/
theorem test_modeG1_sprites :
    ((nextOf (exec .modeG1 (rendering regsG1
      [(0x500, 0x1F#8), (0x501, 0x40#8), (0x502, 0x01#8), (0x503, 0x06#8), (0x504, 0x1F#8),
       (0x505, 0x44#8), (0x506, 0x01#8), (0x507, 0x02#8), (0x508, 0xD0#8), (0x1008, 0xFF#8)]
      0 32))).bind (fun t => t.raster)).map
      (fun r => ([r.line.scol[63], r.line.scol[64], r.line.scol[71], r.line.scol[72],
        r.line.scol[75], r.line.scol[76]], r.acc.accC)) =
      some ([0#4, 6#4, 6#4, 2#4, 2#4, 0#4], true) := by decide

/-- BG5: third 1, name 0x20, line 3, per-row colour; cbit 0 shows 6. -/
theorem test_modeG2_masked :
    pixelsAfter .modeG2 (rendering
      #v[0x02#8, 0xC0#8, 0x06#8, 0xFF#8, 0x03#8, 0x36#8, 0x07#8, 0x04#8]
      [(0x0903, 0x80#8), (0x1948, 0x20#8), (0x2903, 0x6E#8)] 64 83) = some [shown 6#4] := by decide

/-- ADR12: with `P_GII_COLOR_PER_ROW` false the colour byte of that cell is at 0x2120. -/
theorem test_modeG2_colour_per_cell :
    pixelsAfter .modeG2
      (let s := rendering #v[0x02#8, 0xC0#8, 0x06#8, 0xFF#8, 0x03#8, 0x36#8, 0x07#8, 0x04#8]
        [(0x0903, 0x80#8), (0x1948, 0x20#8), (0x2120, 0x6E#8)] 65 83
       { s with params := { s.params with giiColorPerRow := false } }) =
      some [shown 14#4] := by decide

/-- P8 on line 28: byte 7 of pattern 5 is 0x9C; x 8 shows 9. -/
theorem test_modeMC_row_three :
    pixelsAfter .modeMC (rendering
      #v[0x00#8, 0xC8#8, 0x05#8, 0x00#8, 0x01#8, 0x0A#8, 0x00#8, 0x04#8]
      [(0x82F, 0x9C#8), (0x1461, 0x05#8)] 8 28) = some [shown 9#4] := by decide

/-- BG7: a zero left nibble shows BD. -/
theorem test_modeMC_transparent :
    pixelsAfter .modeMC (rendering
      #v[0x00#8, 0xC8#8, 0x05#8, 0x00#8, 0x01#8, 0x0A#8, 0x00#8, 0x04#8]
      [(0x800, 0x03#8)] 1 0) = some [shown 4#4] := by decide

/-- BG9: x 24 is px 4 of a glyph byte 0x88 and shows TC. -/
theorem test_modeTX_glyph :
    pixelsAfter .modeTX (rendering
      #v[0x00#8, 0xD0#8, 0x02#8, 0x00#8, 0x00#8, 0x0A#8, 0x00#8, 0xF4#8]
      [(0x209, 0x88#8), (0x852, 0x41#8)] 24 17) = some [shown 15#4] := by decide

/-- BG8: x 250 is border and shows BD. -/
theorem test_modeTX_border :
    pixelsAfter .modeTX (rendering
      #v[0x00#8, 0xD0#8, 0x02#8, 0x00#8, 0x00#8, 0x0A#8, 0x00#8, 0xF4#8]
      [(0x0, 0xFF#8)] 250 17) = some [shown 4#4] := by decide

/-- DEC8: by default the combination is Graphics I. -/
theorem test_modeG1UndocM1M2_default :
    pixelsAfter .modeG1UndocM1M2 (rendering
      #v[0x00#8, 0xD8#8, 0x00#8, 0x10#8, 0x01#8, 0x0A#8, 0x02#8, 0x07#8]
      [(0x400, 0xF4#8), (0x800, 0x81#8)] 7 0) = some [shown 15#4] := by decide

/-- R70: under a `P_UNDOC_MODE` that gives it Text, x 7 is border and shows BD. -/
theorem test_modeG1UndocM1M2_text :
    pixelsAfter .modeG1UndocM1M2
      (let s := rendering #v[0x00#8, 0xD8#8, 0x00#8, 0x10#8, 0x01#8, 0x0A#8, 0x02#8, 0x07#8]
        [(0x400, 0xF4#8), (0x800, 0x81#8)] 7 0
       { s with params := { s.params with undoc := { s.params.undoc with m1m2 := .tx } } }) =
      some [shown 7#4] := by decide

/-! ## Refusals -/

/-- H13. -/
theorem test_step_reserved_header :
    refusalOf (step { State.reset with input := [0x04#8] }) =
      some (.reservedHeader 0x04#8) := by decide

theorem test_render_during_render :
    refusalOf (exec .render State.reset.beginRender) = some .renderInProgress := by decide

theorem test_mode_row_outside_render :
    refusalOf (exec .modeTX State.reset) = some .noRenderInProgress := by decide

/-! ## Witnesses: a state and operands that meet the hypotheses of each obligation -/

/-- DecodeOfEncodedTransaction, at the longest payload. -/
theorem test_witness_decodeOfEncodedTransaction :
    Instr.wf (.setvram 0x3FFF#16 (List.replicate 65535 0xFF#8)) = true ∧
    Instr.isModeRow (.setvram 0x3FFF#16 (List.replicate 65535 0xFF#8)) = false := by
  rw [Instr.wf, payloadFits, List.length_replicate]; decide

/-- DecodeOfEncode, for a transaction and for a mode row. -/
theorem test_witness_decodeOfEncode :
    Instr.wf (.setregs []) = true ∧ Instr.wf .modeTX = true := by decide

/-- EncodeOfDecode. -/
theorem test_witness_encodeOfDecode :
    decode [0x02#8, 0xFE#8, 0x7F#8, 0x03#8] = .ok (.readvram 0x7FFE#16, [0x03#8]) := rfl

/-- ModeKeyMatchesTable. -/
theorem test_witness_modeKeyMatchesTable : (0x1800#16, 0x1802#16, .modeG1UndocM1M2) ∈ modeRows := by
  decide

/-- ReservedHeaderRefused, at both ends of its range. -/
theorem test_witness_reservedHeaderRefused :
    let s := { State.reset with input := [0x04#8] }
    let s' := { State.reset with input := [0xFF#8] }
    s.raster = none ∧ s.input = 0x04#8 :: [] ∧ 4 ≤ (0x04#8 : Byte).toNat ∧
    s'.raster = none ∧ s'.input = 0xFF#8 :: [] ∧ 4 ≤ (0xFF#8 : Byte).toNat := by decide

/-- StepRunsTransaction. -/
theorem test_witness_stepRunsTransaction :
    let s := { State.reset with input := [0x03#8, 0x02#8] }
    s.raster = none ∧ decode s.input = .ok (.render, [0x02#8]) := ⟨rfl, rfl⟩

/-- StepRunsModeRow, ModeRowFollowsDecodedMode, TransactionDuringRenderRefused. -/
theorem test_witness_renderInProgress :
    State.reset.beginRender.raster = some Raster.start ∧ Instr.isModeRow .render = false := ⟨rfl, rfl⟩

/-- StepIdleHolds, SetregsReplacesBankOrFails (other counts), ReadvramReturnsByte, RenderSeesNewRegisters,
RenderReturnsPicture, RenderWholeIsPixelByPixel: the reset state, and counts beside 8. -/
theorem test_witness_idle :
    State.reset.raster = none ∧ State.reset.input = [] ∧
    (List.replicate 7 0x01#8).length ≠ 8 ∧ (List.replicate 9 0x01#8).length ≠ 8 := by decide

/-- IncompleteTransactionRefused. -/
theorem test_witness_incompleteTransactionRefused :
    let s := { State.reset with input := [0x02#8] }
    Instr.wf (.readvram 0x1234#16) = true ∧ Instr.isModeRow (.readvram 0x1234#16) = false ∧
    s.raster = none ∧ s.input ≠ [] ∧ [0x34#8, 0x12#8] ≠ ([] : List Byte) ∧
    (encode (.readvram 0x1234#16)).toBytes = s.input ++ [0x34#8, 0x12#8] := by decide

/-- StreamRunsInOrder. -/
theorem test_witness_streamRunsInOrder :
    State.reset.raster = none ∧ State.reset.input = [] ∧
    ∀ i ∈ [Instr.setregs [], .render, .readvram 0x4000#16], i.wf = true ∧ i.isModeRow = false := by
  decide

/-- SetregsReplacesBankOrFails, with 8 bytes; its encoding clause at the longest payload. -/
theorem test_witness_setregsReplacesBankOrFails :
    State.reset.raster = none ∧ regsG1.toList.length = 8 ∧
    (List.replicate 65535 0x00#8).length < 65536 := by
  rw [List.length_replicate]; decide

/-- SetvramWritesWindowOrFails and FillVramFillsWindow: a one-byte window at the last address, an empty
one there, and the empty one at 0; the address below the window is in its other clause. -/
theorem test_witness_setvramWritesWindowOrFails :
    State.reset.raster = none ∧ Memory.wf State.reset.vram = true ∧
    (0x3FFF#16 : Half).toNat ≤ 16383 ∧ (0x3FFF#16 : Half).toNat + [0x55#8].length ≤ 16384 ∧
    (0x0000#16 : Half).toNat + ([] : List Byte).length ≤ 16384 ∧
    16382 < 16384 ∧ 16382 < (0x3FFF#16 : Half).toNat := by decide

/-- SetvramWritesWindowOrFails out of range, by the offset alone and by the end alone. -/
theorem test_witness_setvramOutOfRange :
    16383 < (0x4000#16 : Half).toNat ∧
    (0x3FFF#16 : Half).toNat = 16383 ∧ 16384 < (0x3FFF#16 : Half).toNat + [0x01#8, 0x02#8].length := by
  decide

/-- ReadBackAfterWrite: the second of two bytes up to the last address, with READVRAM and a
failing SETREGS between. -/
theorem test_witness_readBackAfterWrite :
    let payload := [0x01#8, 0x02#8]
    let between := [Instr.readvram 0x0000#16, .setregs []]
    State.reset.raster = none ∧ Memory.wf State.reset.vram = true ∧
    (0x3FFE#16 : Half).toNat ≤ 16383 ∧ (0x3FFE#16 : Half).toNat + payload.length ≤ 16384 ∧
    1 < payload.length ∧ (∀ i ∈ between, ∀ o b, i ≠ .setvram o b) ∧
    ∃ t u, performAll (.setvram 0x3FFE#16 payload :: between) State.reset = .next t ∧
      exec (.readvram (0x3FFE#16 + BitVec.ofNat 16 1)) t = .next u := by
  refine ⟨rfl, rfl, by decide, by decide, by decide, ?_, _, _, rfl, rfl⟩
  intro i hi o b
  simp only [List.mem_cons, List.not_mem_nil, or_false] at hi
  obtain rfl | rfl := hi <;> simp

/-- RenderStatusFlags, with VRAM all zero: line 0 has no fifth sprite and line 1 has sprite 4. -/
theorem test_witness_renderStatusFlags_fifth :
    let d := decodeRegs referenceParams regsG1
    regsG1[1].getLsbD 6 = true ∧ d.mode ≠ .tx ∧ 1 < 192 ∧ (scanLine d [] 1).2 = some 4 ∧
    ∀ y < 1, (scanLine d [] y).2 = none := by decide

/-- RenderStatusFlags where the engine does not run, and with the sentinel in entry 0: no line has a fifth sprite. -/
theorem test_witness_renderStatusFlags_none :
    ¬(referenceRegs[1].getLsbD 6 = true ∧
      (decodeRegs referenceParams referenceRegs).mode ≠ .tx) ∧
    ∀ y < 192, (scanLine (decodeRegs referenceParams regsG1) [(0x500, 0xD0#8)] y).2 = none :=
  ⟨by decide, fun _ _ => rfl⟩

/-- BlankedScreenIsBackdrop and TextModeHasNoSprites. -/
theorem test_witness_blanked_text :
    referenceRegs[1].getLsbD 6 = false ∧
    (decodeRegs referenceParams (regsG1.set 1 0xD0#8)).mode = .tx := by decide

/-- UnusedRegisterBitsNoEffect: every unused bit differs. -/
theorem test_witness_unusedRegisterBitsNoEffect :
    ∀ n : Fin 8, (Vector.replicate 8 0xFF#8 : Vector Byte 8)[n] &&& usedBits[n] =
      usedBits[n] &&& usedBits[n] := by decide

/-- RenderDependsOnRegsAndVram: two states that differ in the issued bytes and the reply. -/
theorem test_witness_renderDependsOnRegsAndVram :
    let s := State.reset
    let s' := { State.reset with input := [0x03#8], reply := some (dataReply 0x12#8) }
    s ≠ s' ∧ s.raster = none ∧ s'.raster = none ∧ s.params = s'.params ∧ s.regs = s'.regs ∧
    s.vram = s'.vram := by decide

/-- SolidFill: P1's registers and VRAM, K = 7. -/
theorem test_witness_solidFill :
    let vram : Memory := [(0x400, 0x07#8), (0x500, 0xD0#8)]
    let d := decodeRegs referenceParams regsG1
    regsG1[1].getLsbD 6 = true ∧ d.mode = .g1 ∧ d.bd = 7#4 ∧ memRead vram d.sa.toNat = 0xD0#8 ∧
    ∀ cell < 768,
      let name := (memRead vram (d.nt.toNat + cell)).toNat
      let background := (memRead vram (d.ct.toNat + name / 8)).toNat % 16
      (∀ line < 8, memRead vram (d.pg.toNat + name * 8 + line) = 0x00#8) ∧
      (background = (7#4 : Colour).toNat ∨ background = 0) := by decide +kernel

/-- SentinelEndsTable, at the first and the last entry. -/
theorem test_witness_sentinelEndsTable :
    let d := decodeRegs referenceParams regsG1
    spriteYByte d [(0x500, 0xD0#8)] 0 = 0xD0#8 ∧ spriteYByte d [(0x57C, 0xD0#8)] 31 = 0xD0#8 := by
  decide

/-- EarlyClockAtZeroIsOffScreen. -/
theorem test_witness_earlyClockAtZeroIsOffScreen :
    referenceParams.ecShift = 32 ∧
    memRead [(0x503, 0x8F#8)] (attrAddr (decodeAs .g1 regsG1) 0 1) = 0x00#8 ∧
    (spriteAttr (decodeAs .g1 regsG1) [(0x503, 0x8F#8)] 0).getLsbD 7 = true := by decide

/-- SpriteLinesOfYByte, at the two values where its clauses meet. -/
theorem test_witness_spriteLinesOfYByte :
    (0xE0#8 : Byte).toNat ≤ 0xE0 ∧ rowInRange 8 (spriteRow 225 0xE0#8) = true ∧
    rowInRange 8 (spriteRow 224 0xE0#8) = false ∧
    0xE0 < (0xE1#8 : Byte).toNat ∧ rowInRange 32 (spriteRow 1 0xE1#8) = true ∧
    rowInRange 32 (spriteRow 2 0xE1#8) = false := by decide

/-- SpriteSourceColumns, at the last column and in both sizes. -/
theorem test_witness_spriteSourceColumns :
    7 < 8 ∧ (decodeAs .g1 regsG1).size16 = false ∧
    (decodeAs .g1 (regsG1.set 1 0xC2#8)).size16 = true := by decide

/-- ColourAndPatternBasesDecode, in both of its clauses. -/
theorem test_witness_colourAndPatternBasesDecode :
    (decodeRegs referenceParams regsG1).mode ≠ .g2 ∧
    (decodeRegs referenceParams (regsG1.set 0 0x02#8)).mode = .g2 := by decide

/-- ResolverAddressesInVram, every coordinate at the top of its range; both name-table widths. -/
theorem test_witness_resolverAddressesInVram :
    23 < 24 ∧ 31 < nameWidth .g1 ∧ 31 < nameWidth .g2 ∧ 31 < nameWidth .mc ∧ 39 < nameWidth .tx ∧
    255 < 256 ∧ 7 < 8 ∧ 2 < 3 ∧ 15 < 16 ∧ 3 < 4 := by decide

/-- ModeG1MakesPixel, ModeMCMakesPixel, ModeTXMakesPixel, ModeG1UndocMakesG1Pixel,
ModeG2MakesPixel: the display enabled, M1 and M2 any; the edges of the frame and the columns 7, 8,
247, 248 where the Text border and the glyphs meet. -/
theorem test_witness_modeRowMakesPixel :
    let regs := regsG1.set 0 0x02#8
    (∀ x ∈ [(0 : Fin 256), 7, 8, 247, 248, 255], ∀ y ∈ [(0 : Fin 192), 191],
      ∃ r, (rendering regs [] x y).raster = some r ∧ r.x = x ∧ r.y = y) ∧
    (∀ x y, (rendering regs [] x y).regs = regs ∧ (rendering regs [] x y).params = referenceParams) ∧
    regs[1].getLsbD 6 = true ∧ referenceParams.undoc.m1m2 = .g1 ∧
    ∀ m1 m2, selectMode referenceParams.undoc m1 m2 true = .g2 :=
  ⟨fun _ _ _ _ => ⟨_, rfl, rfl, rfl⟩, fun _ _ => ⟨rfl, rfl⟩, by decide, rfl, by decide⟩

/-- TextLowPatternBitsUnshown, at both edges of the 40 columns. -/
theorem test_witness_textLowPatternBitsUnshown :
    textBorder 8 = false ∧ textBorder 247 = false ∧ (0xFC#8 : Byte) >>> 2 = 0xFF#8 >>> 2 := by decide

/-- ModeRowAdvancesRaster, in each clause: columns 0, 1 and 254, the last column of lines 190 and
191. -/
theorem test_witness_modeRowAdvancesRaster :
    Instr.isModeRow .modeG1 = true ∧
    ∀ x ∈ [(0 : Fin 256), 1, 254, 255], ∀ y ∈ [(0 : Fin 192), 190, 191],
      ∃ r, (rendering regsG1 [] x y).raster = some r ∧ r.x = x ∧ r.y = y :=
  ⟨rfl, fun _ _ _ _ => ⟨_, rfl, rfl, rfl⟩⟩

/-- EnteringLineRunsSprites: the engine runs, is off by the blanked display, is off by Text mode;
on line 1 of an all-zero VRAM there is a fifth sprite. -/
theorem test_witness_enteringLineRunsSprites :
    (∃ r, (rendering regsG1 [] 0 1).raster = some r ∧ r.x.val = 0 ∧ r.acc.acc5S = false) ∧
    (let d := decodeRegs referenceParams regsG1
     d.blankN = true ∧ d.mode ≠ .tx ∧ (scanLine d [] 1).2 = some 4) ∧
    (decodeRegs referenceParams referenceRegs).blankN = false ∧
    (decodeRegs referenceParams (regsG1.set 1 0xD0#8)).mode = .tx :=
  ⟨⟨_, rfl, rfl, rfl⟩, by decide, by decide, by decide⟩

/-- Graphics I with the display disabled. -/
def regsBlank : Vector Byte 8 := regsG1.set 1 0x80#8

/-- A RENDER of `regsBlank` that has made all pixels but the last. -/
def beforeLastPixel : State :=
  { withRegsVram regsBlank [] with
    raster := some { Raster.start with
      x := 255, y := 191
      pixels := (render referenceParams regsBlank []).frame.take 49151 } }

/-- BlankedModeRowMakesBackdrop, StepMakesNextFramePixel, StepKeepsInvariant: a state with the
invariant past the first column, at the last pixel. -/
theorem test_witness_beforeLastPixel :
    beforeLastPixel.Inv ∧ Instr.isModeRow .modeTX = true ∧
    beforeLastPixel.regs[1].getLsbD 6 = false ∧
    ∃ r, beforeLastPixel.raster = some r ∧ r.x.val = 255 ∧ r.y.val = 191 := by
  refine ⟨⟨rfl, ?_, by simp [beforeLastPixel, withRegsVram, State.reset]⟩, rfl, by decide,
    _, rfl, rfl, rfl⟩
  rintro r hr
  obtain rfl := Option.some.inj hr
  refine ⟨?_, rfl, rfl, by decide +kernel, ⟨by decide, List.Pairwise.nil⟩, fun _ => rfl⟩
  show (List.take 49151 _).length = 191 * 256 + 255
  rw [List.length_take, render, renderFields_length]
  decide

/-- ErrorsAreBadInputOnly: a failing and a succeeding transaction. -/
theorem test_witness_errorsAreBadInputOnly :
    Instr.isModeRow (.setregs []) = false ∧
    (∃ t, exec (.setregs []) State.reset = .next t) ∧
    (∃ t, exec (.setvram 0x4000#16 []) State.reset = .next t) ∧
    ∃ t, exec .render State.reset = .next t :=
  ⟨rfl, ⟨_, rfl⟩, ⟨_, rfl⟩, ⟨_, rfl⟩⟩

/-- ModeRowOutsideRenderRefused. -/
theorem test_witness_modeRowOutsideRenderRefused :
    Instr.isModeRow .modeMC = true ∧ State.reset.raster = none := ⟨rfl, rfl⟩

/-- RegistersChangeOnlyBySetregs: a step that changes them. -/
theorem test_witness_registersChange :
    ∃ t, step (State.reset.issue (encode (.setregs regsG1.toList)).toBytes) = .next t ∧
      t.regs ≠ State.reset.regs :=
  ⟨_, rfl, by decide⟩

/-- VramChangesOnlyBySetvram: a step that changes it. -/
theorem test_witness_vramChanges :
    ∃ t, step (State.reset.issue (encode (.setvram 0x3FFF#16 [0x55#8])).toBytes) = .next t ∧
      t.vram ≠ State.reset.vram :=
  ⟨_, rfl, by decide⟩

/-- StepKeepsInvariant, StepMakesNextFramePixel, BlankedModeRowMakesBackdrop and
ParametersNeverChange: a state that has the invariant, at the first pixel of a RENDER with VRAM
listed, and its step. -/
theorem test_witness_stepKeepsInvariant :
    let s := (withRegsVram regsBlank [(0x500, 0xD0#8)]).beginRender
    s.Inv ∧ s.raster = some Raster.start ∧ s.regs[1].getLsbD 6 = false ∧
      ∃ t, step s = .next t := by
  refine ⟨⟨rfl, ?_, by simp [withRegsVram, State.reset]⟩, rfl, by decide, _, rfl⟩
  intro r hr
  obtain rfl : Raster.start = r := Option.some.inj hr
  exact ⟨rfl, rfl, rfl, rfl, ⟨by decide, List.Pairwise.nil⟩, fun _ => rfl⟩

/-- CreationTakesInitialValues and LoadDumpSetsVramAndRegs. -/
theorem test_witness_dump_lengths :
    (List.replicate 16384 0x00#8).length = 16384 ∧ (List.replicate 16392 0xFF#8).length = 16392 ∧
    State.reset.raster = none ∧ Memory.wf State.reset.vram = true :=
  ⟨List.length_replicate, List.length_replicate, rfl, rfl⟩

end Sys2Proof.Tests
end

section
/-! PROOFS. The statements about the state as a whole (10_state.md): the invariant every step keeps,
what a step may change, the raster's movement, the status byte and reset. -/

namespace Sys2Proof.Machine

/-! ## The mode row a register bank selects (30_encoding.md R71, 41_register_decoder.md R93) -/

theorem modeKey_keyM1 (regs : Vector Byte 8) : (modeKey regs).getLsbD keyM1 = regM1 regs := by
  simp [modeKey, keyM1, regM1]

theorem modeKey_keyM2 (regs : Vector Byte 8) : (modeKey regs).getLsbD keyM2 = regM2 regs := by
  simp [modeKey, keyM2, regM2]

theorem modeKey_keyM3 (regs : Vector Byte 8) : (modeKey regs).getLsbD keyM3 = regM3 regs := by
  simp [modeKey, keyM3, regM3]

/-- The row the key matches makes its pixel in the decoded mode, for every `P_UNDOC_MODE`. -/
theorem rowMode_decodeKey_modeKey (s : State) :
    rowMode (decodeKey (modeKey s.regs)) s = modeOf s.params s.regs := by
  simp only [decodeKey, modeKey_keyM1, modeKey_keyM2, modeKey_keyM3, modeOf]
  cases h3 : regM3 s.regs with
  | true => simp [rowMode]
  | false =>
    cases regM2 s.regs <;> cases regM1 s.regs <;> rfl

/-- A mode row makes one pixel of the RENDER in progress, in its own mode. -/
theorem exec_modeRow_of_some {i : Instr} {s : State} {r : Raster} (hi : i.isModeRow = true)
    (h : s.raster = some r) : exec i s = .next (rasterPixel (rowMode i s) s r) := by
  rw [exec_modeRow hi, rasterStep_of_some h]

theorem rasterStep_of_none {m : Mode} {s : State} (h : s.raster = none) :
    rasterStep m s = .refused .noRenderInProgress := by
  simp [rasterStep, h]

/-- The row the key matches makes a pixel with the decoded fields. -/
theorem exec_keyRow_of_some {s : State} {r : Raster} (h : s.raster = some r) :
    exec (decodeKey (modeKey s.regs)) s = .next (rasterPixel (modeOf s.params s.regs) s r) := by
  rw [exec_modeRow_of_some (decodeKey_isModeRow _) h, rowMode_decodeKey_modeKey]

/-! ## Moving the raster on (10_state.md R25) -/

/-- The three ways a RENDER goes on after a pixel: the next column, the next scanline, or the
picture is returned. -/
theorem advanceRaster_cases (d : Fields) (r : Raster) (s : State) :
    (∃ hx : r.x.val + 1 < 256,
      advanceRaster d r s = s.setRaster (some { r with x := ⟨r.x.val + 1, hx⟩ })) ∨
    (r.x.val = 255 ∧ ∃ hy : r.y.val + 1 < 192, advanceRaster d r s =
      s.setRaster (some { r with y := ⟨r.y.val + 1, hy⟩, x := 0, line := LineState.start })) ∨
    (r.x.val = 255 ∧ r.y.val = 191 ∧ advanceRaster d r s =
      (s.setRaster none).respond (pictureReply (finishPicture d r.pixels r.acc))) := by
  unfold advanceRaster
  obtain ⟨hx, h⟩ | ⟨hx, hy, h⟩ | ⟨hx, hy, h⟩ := nextPosition_cases r <;> rw [h]
  · exact .inl ⟨hx, rfl⟩
  · exact .inr (.inl ⟨hx, hy, rfl⟩)
  · exact .inr (.inr ⟨hx, hy, rfl⟩)

/-- Past column 0 the sprite engine does not run again for the line (R26). -/
theorem madePixel_line_of_pos (d : Fields) (s : State) {r : Raster} (hx : 0 < r.x.val) :
    (madePixel d s r).line = r.line := by
  have hx0 : r.x ≠ 0 := Fin.pos_iff_ne_zero.1 hx
  simp [madePixel, enterPixel, hx0]

/-- Past column 0 the accumulators stand (R27). -/
theorem madePixel_acc_of_pos (d : Fields) (s : State) {r : Raster} (hx : 0 < r.x.val) :
    (madePixel d s r).acc = r.acc := by
  have hx0 : r.x ≠ 0 := Fin.pos_iff_ne_zero.1 hx
  simp [madePixel, enterPixel, hx0]

/-! ## The invariant through one pixel of a RENDER -/

/-- The sprite colour at the raster position is that of the whole scanline's layer. -/
theorem Raster.Inv.spriteAtRaster_eq {p : Params} {regs : Vector Byte 8} {vram : Memory}
    {r : Raster} (h : r.Inv p regs vram) :
    spriteAtRaster p (decodeRegs p regs) vram r =
      (spriteLayer p (decodeRegs p regs) vram r.y.val)[r.x] := by
  unfold spriteAtRaster
  split
  · rfl
  · next hx =>
    have hline := h.line
    rw [if_neg hx] at hline
    rw [hline]
    rfl

section
variable {s : State} {r : Raster}

/-- One more pixel has been made. -/
theorem Raster.Inv.madePixel_length (h : r.Inv s.params s.regs s.vram) :
    (madePixel (decodeRegs s.params s.regs) s r).pixels.length =
      r.y.val * 256 + r.x.val + 1 := by
  simp [madePixel_pixels, h.count]

/-- The pixel made is the next one of the frame. -/
theorem Raster.Inv.madePixel_frame (h : r.Inv s.params s.regs s.vram) :
    (madePixel (decodeRegs s.params s.regs) s r).pixels =
      (render s.params s.regs s.vram).frame.take (r.y.val * 256 + r.x.val + 1) := by
  rw [madePixel_pixels, render_frame_take_succ, ← h.pixels, h.spriteAtRaster_eq]
  rfl

theorem Raster.Inv.madePixel_activeOk (h : r.Inv s.params s.regs s.vram) :
    activeOk (madePixel (decodeRegs s.params s.regs) s r).line.active := by
  rw [madePixel_line h]
  exact lineSprites_activeOk ..

/-- There is still no fifth-sprite number without an overflow. -/
theorem Raster.Inv.madePixel_fsn (h : r.Inv s.params s.regs s.vram) :
    (madePixel (decodeRegs s.params s.regs) s r).acc.acc5S = false →
      (madePixel (decodeRegs s.params s.regs) s r).acc.accFSN = 0#5 := by
  rw [madePixel_acc h]
  exact accAfter_fsn _ _ _ _

/-- The invariant at the next column of the line. -/
theorem Raster.Inv.nextColumn (h : r.Inv s.params s.regs s.vram) (hx : r.x.val + 1 < 256) :
    Raster.Inv s.params s.regs s.vram
      { madePixel (decodeRegs s.params s.regs) s r with x := ⟨r.x.val + 1, hx⟩ } := by
  have hx0 : (⟨r.x.val + 1, hx⟩ : Fin 256) ≠ 0 := Fin.pos_iff_ne_zero.1 (Nat.succ_pos _)
  refine ⟨?_, ?_, ?_, ?_, h.madePixel_activeOk, h.madePixel_fsn⟩
  · simpa [Nat.add_assoc] using h.madePixel_length
  · simpa [Nat.add_assoc] using h.madePixel_frame
  · simpa [hx0] using madePixel_line h
  · simpa [hx0] using madePixel_acc h

/-- The invariant at column 0 of the next scanline. -/
theorem Raster.Inv.nextLine (h : r.Inv s.params s.regs s.vram) (hx : r.x.val = 255)
    (hy : r.y.val + 1 < 192) :
    Raster.Inv s.params s.regs s.vram
      { madePixel (decodeRegs s.params s.regs) s r with
        y := ⟨r.y.val + 1, hy⟩, x := 0, line := LineState.start } := by
  have hpos : (r.y.val + 1) * 256 + 0 = r.y.val * 256 + r.x.val + 1 := by omega
  refine ⟨h.madePixel_length.trans hpos.symm, ?_, rfl, madePixel_acc h,
    ⟨by simp [LineState.start], List.Pairwise.nil⟩, h.madePixel_fsn⟩
  show (madePixel _ s r).pixels = List.take ((r.y.val + 1) * 256 + 0) _
  rw [hpos]
  exact h.madePixel_frame

end

/-! ## The invariant through the operations on the state -/

section
variable {s : State}

theorem State.Inv.consume (h : s.Inv) (rest : List Byte) : (s.consume rest).Inv :=
  ⟨h.vram, h.raster, h.reply⟩

theorem State.Inv.respond (h : s.Inv) {reply : Reply}
    (hr : ∀ picture, reply.picture = some picture → picture.Inv) : (s.respond reply).Inv := by
  refine ⟨h.vram, h.raster, fun reply' picture h1 h2 => ?_⟩
  obtain rfl : reply = reply' := Option.some.inj h1
  exact hr picture h2

/-- A reply of a result code alone holds no picture. -/
theorem State.Inv.respond_code (h : s.Inv) (code : ResultCode) :
    (s.respond (codeReply code)).Inv :=
  h.respond nofun

/-- A reply of a data byte holds no picture. -/
theorem State.Inv.respond_data (h : s.Inv) (data : Byte) :
    (s.respond (dataReply data)).Inv :=
  h.respond nofun

theorem State.Inv.respond_picture (h : s.Inv) {picture : Picture} (hp : picture.Inv) :
    (s.respond (pictureReply picture)).Inv :=
  h.respond fun _ h1 => Option.some.inj h1 ▸ hp

/-- With no RENDER in progress nothing in the invariant reads the registers. -/
theorem State.Inv.setRegs (h : s.Inv) (hn : s.raster = none) (regs : Vector Byte 8) :
    (s.setRegs regs).Inv :=
  ⟨h.vram, fun r hr => by simp [hn] at hr, h.reply⟩

theorem State.Inv.writeVram (h : s.Inv) (hn : s.raster = none) {offset : Nat}
    {bytes : List Byte} (hb : offset + bytes.length ≤ vramSize) :
    (s.writeVram offset bytes).Inv :=
  ⟨Memory.wf_writeBytes hb h.vram, fun r hr => by simp [hn] at hr, h.reply⟩

theorem State.Inv.setRaster_some (h : s.Inv) {r : Raster} (hr : r.Inv s.params s.regs s.vram) :
    (s.setRaster (some r)).Inv :=
  ⟨h.vram, fun _ h1 => Option.some.inj h1 ▸ hr, h.reply⟩

theorem State.Inv.setRaster_none (h : s.Inv) : (s.setRaster none).Inv :=
  ⟨h.vram, nofun, h.reply⟩

end

/-- The picture of a RENDER is whole and has F set. -/
theorem render_inv (p : Params) (regs : Vector Byte 8) (vram : Memory) :
    (render p regs vram).Inv :=
  finishPicture_inv (renderFields_length p (decodeRegs p regs) vram)

/-- Every transaction keeps the invariant. -/
theorem exec_transaction_keeps_inv {i : Instr} {s t : State} (hi : i.isModeRow = false)
    (hs : s.Inv) (h : exec i s = .next t) : t.Inv := by
  obtain ⟨hn, ⟨payload, regs, -, -, rfl⟩ | ⟨payload, -, -, rfl⟩ | ⟨offset, payload, -, hb, -, rfl⟩ |
    ⟨offset, payload, -, -, rfl⟩ | ⟨addr, -, rfl⟩ | ⟨-, rfl⟩⟩ := exec_transaction_next hi h
  · exact (hs.setRegs hn regs).respond_code .ok
  · exact hs.respond_code .invalidLength
  · exact (hs.writeVram hn hb).respond_code .ok
  · exact hs.respond_code .outOfRange
  · exact hs.respond_data _
  · exact hs.respond_picture (render_inv ..)

/-- A pixel made in the decoded mode keeps the invariant. -/
theorem rasterPixel_keeps_inv {s : State} {r : Raster} (hs : s.Inv) (hr : s.raster = some r) :
    (rasterPixel (modeOf s.params s.regs) s r).Inv := by
  have hinv := hs.raster r hr
  obtain ⟨hx, h⟩ | ⟨hx, hy, h⟩ | ⟨hx, hy, h⟩ := advanceRaster_cases
    (decodeRegs s.params s.regs) (madePixel (decodeRegs s.params s.regs) s r) s
  all_goals rw [show rasterPixel _ s r = _ from h]
  · exact hs.setRaster_some (by simpa using hinv.nextColumn (by simpa using hx))
  · rw [madePixel_x] at hx
    exact hs.setRaster_some (by simpa using hinv.nextLine hx (by simpa using hy))
  · rw [madePixel_x] at hx
    rw [madePixel_y] at hy
    refine hs.setRaster_none.respond_picture (finishPicture_inv ?_)
    rw [hinv.madePixel_length, hx, hy]

/-! ## What a step leaves unchanged -/

/-- No transaction changes a parameter. -/
theorem exec_transaction_params {i : Instr} {s t : State} (hi : i.isModeRow = false)
    (h : exec i s = .next t) : t.params = s.params := by
  obtain ⟨-, ⟨_, _, -, -, rfl⟩ | ⟨_, -, -, rfl⟩ | ⟨_, _, -, -, -, rfl⟩ |
    ⟨_, _, -, -, rfl⟩ | ⟨_, -, rfl⟩ | ⟨-, rfl⟩⟩ := exec_transaction_next hi h <;> rfl

/-- A transaction that changes a register is a SETREGS of the new bank. -/
theorem exec_transaction_regs_ne {i : Instr} {s t : State} (hi : i.isModeRow = false)
    (h : exec i s = .next t) (hne : t.regs ≠ s.regs) :
    i = .setregs t.regs.toList ∧ t = (s.setRegs t.regs).succeed := by
  obtain ⟨-, ⟨_, _, rfl, rfl, rfl⟩ | ⟨_, -, -, rfl⟩ | ⟨_, _, -, -, -, rfl⟩ |
    ⟨_, _, -, -, rfl⟩ | ⟨_, -, rfl⟩ | ⟨-, rfl⟩⟩ := exec_transaction_next hi h
  · exact ⟨rfl, rfl⟩
  all_goals exact absurd rfl hne

/-- A transaction that changes VRAM is an in-range SETVRAM. -/
theorem exec_transaction_vram_ne {i : Instr} {s t : State} (hi : i.isModeRow = false)
    (h : exec i s = .next t) (hne : t.vram ≠ s.vram) :
    ∃ offset payload, i = .setvram offset payload ∧ offset.toNat + payload.length ≤ 16384 ∧
      t = (s.writeVram offset.toNat payload).succeed := by
  obtain ⟨-, ⟨_, _, -, -, rfl⟩ | ⟨_, -, -, rfl⟩ | ⟨offset, payload, rfl, hb, -, rfl⟩ |
    ⟨_, _, -, -, rfl⟩ | ⟨_, -, rfl⟩ | ⟨-, rfl⟩⟩ := exec_transaction_next hi h
  case inr.inr.inl => exact ⟨offset, payload, rfl, hb, rfl⟩
  all_goals exact absurd rfl hne

/-- Everything a step that goes on can answer with: it idles, performs a transaction of the stream,
or makes a pixel in the decoded mode. -/
theorem step_next_cases {s t : State} (h : step s = .next t) :
    t = s ∨
    (∃ i rest, s.raster = none ∧ decode s.input = .ok (i, rest) ∧ i.isModeRow = false ∧
      exec i (s.consume rest) = .next t) ∨
    (∃ r, s.raster = some r ∧ t = rasterPixel (modeOf s.params s.regs) s r) := by
  obtain ⟨-, -, rfl⟩ | ⟨i, rest, hn, hd, he⟩ | ⟨r, hr, he⟩ := step_cases h
  · exact .inl rfl
  · exact .inr (.inl ⟨i, rest, hn, hd, decode_isModeRow hd, he⟩)
  · rw [exec_keyRow_of_some hr] at he
    exact .inr (.inr ⟨r, hr, (Host.Outcome.next.inj he).symm⟩)

/-! ## The accumulators of a frame (10_state.md R27; 44_sprite_engine.md R160, R163) -/

theorem latchOverflow_acc5S (acc : FrameAcc) (fifth : Option (Fin 32)) :
    (latchOverflow acc fifth).acc5S = (acc.acc5S || fifth.isSome) := by
  unfold latchOverflow
  split
  · simp
  · split
    · next h => simp [h]
    · simp

@[simp] theorem latchOverflow_accC (acc : FrameAcc) (fifth : Option (Fin 32)) :
    (latchOverflow acc fifth).accC = acc.accC := by
  unfold latchOverflow
  split
  · rfl
  · split <;> rfl

/-- Once a line has overflowed the latch holds. -/
theorem latchOverflow_of_acc5S {acc : FrameAcc} (h : acc.acc5S = true)
    (fifth : Option (Fin 32)) : latchOverflow acc fifth = acc := by
  unfold latchOverflow
  split
  · rfl
  · rw [if_pos h]

/-- The first overflowing line latches its fifth sprite. -/
theorem latchOverflow_first {acc : FrameAcc} (h : acc.acc5S = false) (i : Fin 32) :
    (latchOverflow acc (some i)).accFSN.toNat = i.val := by
  simp only [latchOverflow, h, Bool.false_eq_true, if_false, BitVec.toNat_ofNat]
  exact Nat.mod_eq_of_lt i.isLt

section
variable {p : Params} {d : Fields} {vram : Memory}

/-- One more scanline, by its number. -/
theorem accAfter_succ_of_lt {n : Nat} (hn : n + 1 ≤ 192) :
    accAfter p d vram (n + 1) = (lineSprites p d vram n (accAfter p d vram n)).2 :=
  accAfter_succ p d vram ⟨n, hn⟩

theorem lineSprites_acc_of_runs (h : engineRuns d = true) (y : Nat) (acc : FrameAcc) :
    (lineSprites p d vram y acc).2 =
      latchCollision (latchOverflow acc (scanLine d vram y).2)
        (drawActive p d vram (scanLine d vram y).1).hit := by
  rw [lineSprites, if_pos h]
  rfl

/-- With the engine off no line touches the accumulators (R151). -/
theorem accAfter_of_not_runs (h : engineRuns d = false) {n : Nat} (hn : n ≤ 192) :
    accAfter p d vram n = FrameAcc.start := by
  induction n with
  | zero => rfl
  | succ n ih =>
    rw [accAfter_succ_of_lt hn, ih (Nat.le_of_succ_le hn), lineSprites]
    simp [h]

/-- 5S: some line so far has a fifth sprite in range. -/
theorem accAfter_acc5S (h : engineRuns d = true) {n : Nat} (hn : n ≤ 192) :
    (accAfter p d vram n).acc5S = true ↔ ∃ y < n, (scanLine d vram y).2.isSome = true := by
  induction n with
  | zero => simp [accAfter, FrameAcc.start]
  | succ n ih =>
    rw [accAfter_succ_of_lt hn, lineSprites_acc_of_runs h]
    show (latchOverflow _ _).acc5S = true ↔ _
    rw [latchOverflow_acc5S, Bool.or_eq_true, ih (Nat.le_of_succ_le hn)]
    exact Nat.exists_lt_succ_right.symm

/-- C: some line so far has a collision. -/
theorem accAfter_accC (h : engineRuns d = true) {n : Nat} (hn : n ≤ 192) :
    (accAfter p d vram n).accC = true ↔
      ∃ y < n, (drawActive p d vram (scanLine d vram y).1).hit = true := by
  induction n with
  | zero => simp [accAfter, FrameAcc.start]
  | succ n ih =>
    rw [accAfter_succ_of_lt hn, lineSprites_acc_of_runs h]
    simp only [latchCollision, latchOverflow_accC]
    rw [Bool.or_eq_true, ih (Nat.le_of_succ_le hn)]
    exact Nat.exists_lt_succ_right.symm

/-- FSN: the fifth sprite of the first overflowing line stands from that line on. -/
theorem accAfter_accFSN (h : engineRuns d = true) {n y : Nat} (hn : n ≤ 192) (hy : y < n)
    {i : Fin 32} (hi : (scanLine d vram y).2 = some i)
    (hfirst : ∀ y' < y, (scanLine d vram y').2 = none) :
    (accAfter p d vram n).accFSN.toNat = i.val := by
  induction n with
  | zero => cases hy
  | succ n ih =>
    have hn' := Nat.le_of_succ_le hn
    rw [accAfter_succ_of_lt hn, lineSprites_acc_of_runs h]
    show (latchOverflow _ _).accFSN.toNat = i.val
    obtain hlt | rfl := Nat.lt_succ_iff_lt_or_eq.1 hy
    · have h5 : (accAfter p d vram n).acc5S = true :=
        (accAfter_acc5S h hn').2 ⟨y, hlt, Option.isSome_iff_exists.2 ⟨i, hi⟩⟩
      rw [latchOverflow_of_acc5S h5]
      exact ih hn' hlt
    · have h5 : (accAfter p d vram y).acc5S = false := by
        rw [← Bool.not_eq_true, accAfter_acc5S h hn']
        rintro ⟨y', hy', hsome⟩
        simp [hfirst y' hy'] at hsome
      rw [hi]
      exact latchOverflow_first h5 i

end

/-! ## The fields of the status byte (10_state.md R21) -/

theorem statusByte_5S (acc : FrameAcc) : (statusByte acc).getLsbD 6 = acc.acc5S := by
  cases h : acc.acc5S <;> simp [statusByte, flagAt, fsnField, h]

theorem statusByte_C (acc : FrameAcc) : (statusByte acc).getLsbD 5 = acc.accC := by
  cases h : acc.acc5S <;> simp [statusByte, flagAt, fsnField, h]

/-- Bits 4:0 are the FSN field. -/
theorem statusByte_low (acc : FrameAcc) :
    (statusByte acc).setWidth 5 = if acc.acc5S then acc.accFSN else 0#5 := by
  apply BitVec.eq_of_getLsbD_eq
  intro i hi
  cases h : acc.acc5S <;> simp [statusByte, flagAt, fsnField, h, hi]

theorem statusByte_mod (acc : FrameAcc) :
    (statusByte acc).toNat % 32 = if acc.acc5S then acc.accFSN.toNat else 0 := by
  have h := congrArg BitVec.toNat (statusByte_low acc)
  rw [BitVec.toNat_setWidth] at h
  rw [show (32 : Nat) = 2 ^ 5 from rfl, h]
  split <;> rfl

/-- The status byte of a RENDER, from the accumulators after its last scanline. -/
theorem render_status (p : Params) (regs : Vector Byte 8) (vram : Memory) :
    (render p regs vram).status = statusByte (accAfter p (decodeRegs p regs) vram 192) :=
  congrArg statusByte (renderFields_acc p (decodeRegs p regs) vram)

theorem engineRuns_iff (p : Params) (regs : Vector Byte 8) :
    engineRuns (decodeRegs p regs) = true ↔
      regs[1].getLsbD 6 = true ∧ (decodeRegs p regs).mode ≠ .tx := by
  rw [engineRuns, Bool.and_eq_true, decide_eq_true_eq]
  rfl

end Sys2Proof.Machine

open Sys2Proof Sys2Proof.Machine

/-- Settles O53: a step idles, performs a transaction or makes one pixel in the decoded mode, and
each keeps the invariant. -/
theorem stepKeepsInvariant : Obligations.StepKeepsInvariant := by
  intro s t hs h
  obtain rfl | ⟨i, rest, -, -, hi, he⟩ | ⟨r, hr, rfl⟩ := step_next_cases h
  · exact hs
  · exact exec_transaction_keeps_inv hi (hs.consume rest) he
  · exact rasterPixel_keeps_inv hs hr

/-- Settles O18, from the accumulators after scanline 191. -/
theorem renderStatusFlags : Obligations.RenderStatusFlags := by
  intro p regs vram d status
  have hstatus : status = statusByte (accAfter p d vram 192) := render_status p regs vram
  rw [← engineRuns_iff, hstatus]
  refine ⟨statusByte_F _, fun hruns => ⟨?_, ?_, fun hnone => ?_, fun y hy i hi hfirst => ?_⟩,
    fun hoff => ?_⟩
  · rw [statusByte_5S, accAfter_acc5S hruns le_rfl]
  · rw [statusByte_C, accAfter_accC hruns le_rfl]
  · have h5 : ¬(accAfter p d vram 192).acc5S = true := by
      rw [accAfter_acc5S hruns le_rfl]
      rintro ⟨y, hy, hsome⟩
      rw [hnone y hy] at hsome
      cases hsome
    rw [statusByte_mod, if_neg h5]
  · have h5 : (accAfter p d vram 192).acc5S = true :=
      (accAfter_acc5S hruns le_rfl).2 ⟨y, hy, Option.isSome_iff_exists.2 ⟨i, hi⟩⟩
    rw [statusByte_mod, if_pos h5, accAfter_accFSN hruns le_rfl hy hi hfirst]
  · rw [accAfter_of_not_runs (Bool.not_eq_true _ ▸ hoff) le_rfl]
    decide

/-- Settles O44, by the three ways the raster moves on. -/
theorem modeRowAdvancesRaster : Obligations.ModeRowAdvancesRaster := by
  intro i s r hi hr
  refine ⟨_, exec_modeRow_of_some hi hr, by simp, by simp, by simp, by simp, ?_⟩
  obtain ⟨hx, h⟩ | ⟨hx, hy, h⟩ | ⟨hx, hy, h⟩ := advanceRaster_cases
    (decodeAs (rowMode i s) s.regs) (madePixel (decodeAs (rowMode i s) s.regs) s r) s
  all_goals rw [show rasterPixel _ s r = _ from h]; rw [madePixel_x] at hx
  · refine ⟨fun _ => ⟨rfl, _, rfl, by simp, by simp, fun hpos => ?_⟩, by omega, by omega⟩
    exact ⟨madePixel_line_of_pos _ s hpos, madePixel_acc_of_pos _ s hpos⟩
  · rw [madePixel_y] at hy
    refine ⟨by omega, fun _ _ => ⟨rfl, _, rfl, rfl, by simp, rfl, ?_⟩, by omega⟩
    exact madePixel_acc_of_pos _ s (by omega)
  · rw [madePixel_y] at hy
    exact ⟨by omega, by omega, fun _ _ => ⟨rfl, _, rfl, intOutput_statusByte .., statusByte_F _⟩⟩

/-- Settles O50: idling and making a pixel write no register, and of the transactions only SETREGS
does. -/
theorem registersChangeOnlyBySetregs : Obligations.RegistersChangeOnlyBySetregs := by
  intro s t h hne
  obtain rfl | ⟨i, rest, hn, hd, hi, he⟩ | ⟨r, -, rfl⟩ := step_next_cases h
  · exact absurd rfl hne
  · obtain ⟨rfl, ht⟩ := exec_transaction_regs_ne hi he hne
    refine ⟨hn, _, rest, hd, rfl, ?_, ?_⟩ <;> rw [ht] <;> rfl
  · exact absurd (rasterPixel_regs r s _) hne

/-- Settles O51: idling and making a pixel write no byte of VRAM, and of the transactions only an
in-range SETVRAM does. -/
theorem vramChangesOnlyBySetvram : Obligations.VramChangesOnlyBySetvram := by
  intro s t h hne
  obtain rfl | ⟨i, rest, hn, hd, hi, he⟩ | ⟨r, -, rfl⟩ := step_next_cases h
  · exact absurd rfl hne
  · obtain ⟨offset, payload, rfl, hb, rfl⟩ := exec_transaction_vram_ne hi he hne
    exact ⟨hn, offset, payload, rest, hd, hb, rfl, rfl⟩
  · exact absurd (rasterPixel_vram r s _) hne

/-- Settles O52, by the three things a step can be. -/
theorem parametersNeverChange : Obligations.ParametersNeverChange := by
  intro s t h
  obtain rfl | ⟨i, rest, -, -, hi, he⟩ | ⟨r, -, rfl⟩ := step_next_cases h
  · rfl
  · exact exec_transaction_params (s := s.consume rest) hi he
  · exact rasterPixel_params r s _

/-- Settles O48: every mode row is a `rasterStep`, which needs a RENDER in progress. -/
theorem modeRowOutsideRenderRefused : Obligations.ModeRowOutsideRenderRefused := by
  intro i s hi hn
  rw [exec_modeRow hi, rasterStep_of_none hn]

/-- Settles O54, by evaluating the reset state. -/
theorem resetState : Obligations.ResetState := by
  unfold Obligations.ResetState
  decide

/-- Settles O55: nothing is listed in VRAM, no RENDER is in progress and nothing is returned. -/
theorem resetHasInvariant : Obligations.ResetHasInvariant :=
  ⟨Memory.wf_nil, nofun, nofun⟩
end

section
/-! PROOFS. The statements about the step and the stream of issued transactions (20_memory.md
section 5). -/

namespace Sys2Proof

/-- Decoding undoes encoding, whatever bytes follow (30_encoding.md R80 to R82). -/
theorem decode_encode_append {i : Instr} (hwf : i.wf = true) (hi : i.isModeRow = false)
    (rest : List Byte) : decode ((encode i).toBytes ++ rest) = .ok (i, rest) := by
  cases i with
  | setregs payload =>
    simp [encode, Code.toBytes, payloadBytes, halfBytes, decodeSetregs, payload_length_toNat hwf]
  | setvram offset payload =>
    simp [encode, Code.toBytes, payloadBytes, halfBytes, decodeSetvram, payload_length_toNat hwf]
  | readvram addr => simp [encode, Code.toBytes, halfBytes, decodeReadvram]
  | render => rfl
  | modeG1 | modeG1UndocM1M2 | modeG2 | modeMC | modeTX => cases hi

end Sys2Proof

namespace Sys2Proof.Machine

theorem step_of_raster {s : State} {r : Raster} (h : s.raster = some r) :
    step s = exec (decodeKey (modeKey s.regs)) s := by
  rw [step, fetch_of_raster h]

theorem step_of_decode {s : State} {i : Instr} {rest : List Byte} (h : s.raster = none)
    (hd : decode s.input = .ok (i, rest)) : step s = exec i (s.consume rest) := by
  rw [step, fetch_of_decode h hd]

theorem State.issue_of_input_nil {s : State} (h : s.input = []) (bytes : List Byte) :
    s.issue bytes = s.consume bytes := by
  rw [State.issue, h]; rfl

/-- With no RENDER in progress every transaction completes. -/
theorem exec_transaction_completes {i : Instr} {s : State} (hi : i.isModeRow = false)
    (h : s.raster = none) : ∃ t, exec i s = .next t := by
  cases i with
  | setregs | setvram | readvram | render => exact ⟨_, perform_of_none h⟩
  | modeG1 | modeG1UndocM1M2 | modeG2 | modeMC | modeTX => cases hi

/-- A transaction leaves the raster and the stream as they were. -/
theorem exec_transaction_raster_input {i : Instr} {s t : State} (hi : i.isModeRow = false)
    (h : exec i s = .next t) : t.raster = s.raster ∧ t.input = s.input := by
  obtain ⟨-, ⟨_, _, -, -, rfl⟩ | ⟨_, -, -, rfl⟩ | ⟨_, _, -, -, -, rfl⟩ |
    ⟨_, _, -, -, rfl⟩ | ⟨_, -, rfl⟩ | ⟨-, rfl⟩⟩ := exec_transaction_next hi h <;> exact ⟨rfl, rfl⟩

theorem performAll_cons {i : Instr} {is : List Instr} {s t : State} (h : exec i s = .next t) :
    performAll (i :: is) s = performAll is t := by
  rw [performAll, h]

/-- A step takes the first transaction issued off the stream and performs it; the bytes issued after
it stay. -/
theorem step_issue_encode {i : Instr} {s t : State} (hn : s.raster = none) (hin : s.input = [])
    (hwf : i.wf = true) (hi : i.isModeRow = false) (h : exec i s = .next t) (bytes : List Byte) :
    step (s.issue ((encode i).toBytes ++ bytes)) = .next (t.issue bytes) := by
  have hd : decode (s.issue ((encode i).toBytes ++ bytes)).input = .ok (i, bytes) := by
    rw [State.issue_input, hin]
    exact decode_encode_append hwf hi bytes
  have htin : t.input = [] := (exec_transaction_raster_input hi h).2.trans hin
  rw [step_of_decode (s := s.issue _) hn hd, State.issue_of_input_nil htin]
  exact exec_transaction_consume (s := s) hi h

end Sys2Proof.Machine

open Sys2Proof Sys2Proof.Machine

/-- Settles O11, by induction on the transactions: each step performs one of them and leaves the
bytes of the others issued. -/
theorem streamRunsInOrder : Obligations.StreamRunsInOrder := by
  intro is
  induction is with
  | nil =>
    intro s _ hin _
    refine ⟨s, rfl, ?_⟩
    rw [State.issue_of_input_nil hin, encodeAll, ← hin]
    rfl
  | cons i is ih =>
    intro s hn hin hall
    obtain ⟨⟨hwf, hi⟩, hrest⟩ := List.forall_mem_cons.1 hall
    obtain ⟨u, hu⟩ := exec_transaction_completes hi hn
    obtain ⟨hur, hui⟩ := exec_transaction_raster_input hi hu
    obtain ⟨t, hperform, hrun⟩ := ih u (hur.trans hn) (hui.trans hin) hrest
    refine ⟨t, (performAll_cons hu).trans hperform, ?_⟩
    exact (core_run_succ (step_issue_encode hn hin hwf hi hu _)).trans hrun

/-- Settles O7: the fetched instruction is the decoded one, in the state without its bytes. -/
theorem stepRunsTransaction : Obligations.StepRunsTransaction :=
  fun _ _ _ hn hd => step_of_decode hn hd

/-- Settles O8: the fetched instruction is the mode row of the registers' key. -/
theorem stepRunsModeRow : Obligations.StepRunsModeRow :=
  fun _ _ hr => step_of_raster hr
end

section
/-! PROOFS. The statements about the encoding of transactions and mode keys and about the
pseudo-transactions (30_encoding.md sections 2, 4 and 5). -/

namespace Sys2Proof

/-! ## Decoding what was encoded (30_encoding.md R80) -/

/-- A transaction is spelled as a byte string. -/
theorem encode_eq_bytes {i : Instr} (hi : i.isModeRow = false) :
    encode i = .bytes (encode i).toBytes := by
  cases i with
  | setregs | setvram | readvram | render => rfl
  | modeG1 | modeG1UndocM1M2 | modeG2 | modeMC | modeTX => cases hi

theorem decodeCode_bytes {bytes : List Byte} {i : Instr} (h : decode bytes = .ok (i, [])) :
    decodeCode (.bytes bytes) = some i := by
  simp only [decodeCode, h]

theorem decode_encode {i : Instr} (hwf : i.wf = true) (hi : i.isModeRow = false) :
    decode (encode i).toBytes = .ok (i, []) := by
  simpa using decode_encode_append hwf hi []

/-- A mode row is the one its match word selects (R71). -/
theorem decodeCode_encode_modeRow {i : Instr} (hi : i.isModeRow = true) :
    decodeCode (encode i) = some i := by
  cases i with
  | setregs | setvram | readvram | render => cases hi
  | modeG1 | modeG1UndocM1M2 | modeG2 | modeMC | modeTX => rfl

/-! ## What decodes was encoded (30_encoding.md R80 to R82) -/

/-- A 16-bit field and its two bytes. -/
theorem halfBytes_half (low high : Byte) : halfBytes (half low high) = [low, high] := by
  simp [halfBytes]

/-- A payload taken by its LEN fits LEN, and LEN and payload are its encoding. -/
theorem payload_of_takeExactly {l0 l1 : Byte} {bytes payload rest : List Byte}
    (h : takeExactly (half l0 l1).toNat bytes = some (payload, rest)) :
    payloadFits payload = true ∧ l0 :: l1 :: bytes = payloadBytes payload ++ rest := by
  obtain ⟨rfl, hlen⟩ := takeExactly_eq_some.1 h
  constructor
  · rw [payloadFits, hlen]
    exact decide_eq_true (half l0 l1).isLt
  · simp [payloadBytes, hlen, halfBytes_half]

theorem decodeSetregs_eq_ok {bytes rest : List Byte} {i : Instr}
    (h : decodeSetregs bytes = .ok (i, rest)) :
    ∃ payload, i = .setregs payload ∧ payloadFits payload = true ∧
      bytes = payloadBytes payload ++ rest := by
  unfold decodeSetregs at h
  split at h
  · split at h
    · next htake =>
      cases h
      exact ⟨_, rfl, payload_of_takeExactly htake⟩
    · cases h
  · cases h

theorem decodeSetvram_eq_ok {bytes rest : List Byte} {i : Instr}
    (h : decodeSetvram bytes = .ok (i, rest)) :
    ∃ offset payload, i = .setvram offset payload ∧ payloadFits payload = true ∧
      bytes = halfBytes offset ++ payloadBytes payload ++ rest := by
  unfold decodeSetvram at h
  split at h
  · split at h
    · next htake =>
      cases h
      obtain ⟨hfits, hbytes⟩ := payload_of_takeExactly htake
      exact ⟨_, _, rfl, hfits, by simp [halfBytes_half, hbytes]⟩
    · cases h
  · cases h

theorem decodeReadvram_eq_ok {bytes rest : List Byte} {i : Instr}
    (h : decodeReadvram bytes = .ok (i, rest)) :
    ∃ addr, i = .readvram addr ∧ bytes = halfBytes addr ++ rest := by
  unfold decodeReadvram at h
  split at h
  · cases h
    exact ⟨_, rfl, by simp [halfBytes_half]⟩
  · cases h

/-- The converse of `decode_encode_append`, for all bytes. -/
theorem encode_of_decode {bytes rest : List Byte} {i : Instr} (h : decode bytes = .ok (i, rest)) :
    i.wf = true ∧ bytes = (encode i).toBytes ++ rest := by
  cases bytes with
  | nil => cases h
  | cons header operands =>
    obtain ⟨rfl, hd⟩ | ⟨rfl, hd⟩ | ⟨rfl, hd⟩ | ⟨rfl, hd⟩ | ⟨-, hd⟩ := decode_cons header operands <;>
      rw [hd] at h
    · obtain ⟨payload, rfl, hfits, rfl⟩ := decodeSetregs_eq_ok h
      exact ⟨hfits, rfl⟩
    · obtain ⟨offset, payload, rfl, hfits, rfl⟩ := decodeSetvram_eq_ok h
      exact ⟨hfits, rfl⟩
    · obtain ⟨addr, rfl, rfl⟩ := decodeReadvram_eq_ok h
      exact ⟨rfl, rfl⟩
    · cases h
      exact ⟨rfl, rfl⟩
    · cases h

/-- Bytes issued later leave a decoded transaction as it was and join the bytes after it. -/
theorem decode_append {bytes rest : List Byte} {i : Instr} (h : decode bytes = .ok (i, rest))
    (more : List Byte) : decode (bytes ++ more) = .ok (i, rest ++ more) := by
  obtain ⟨hwf, rfl⟩ := encode_of_decode h
  rw [List.append_assoc]
  exact decode_encode_append hwf (Machine.decode_isModeRow h) _

/-! ## Bytes that spell no transaction (30_encoding.md R82, R83) -/

theorem decode_of_four_le {header : Byte} (h : 4 ≤ header.toNat) (rest : List Byte) :
    decode (header :: rest) = .error (.reservedHeader header) := by
  obtain ⟨rfl, -⟩ | ⟨rfl, -⟩ | ⟨rfl, -⟩ | ⟨rfl, -⟩ | ⟨-, hd⟩ := decode_cons header rest
  case inr.inr.inr.inr => exact hd
  all_goals exact absurd h (by decide)

theorem decodeSetregs_ne_reservedHeader (bytes : List Byte) (header : Byte) :
    decodeSetregs bytes ≠ .error (.reservedHeader header) := by
  unfold decodeSetregs
  split
  · split <;> nofun
  · nofun

theorem decodeSetvram_ne_reservedHeader (bytes : List Byte) (header : Byte) :
    decodeSetvram bytes ≠ .error (.reservedHeader header) := by
  unfold decodeSetvram
  split
  · split <;> nofun
  · nofun

theorem decodeReadvram_ne_reservedHeader (bytes : List Byte) (header : Byte) :
    decodeReadvram bytes ≠ .error (.reservedHeader header) := by
  unfold decodeReadvram
  split <;> nofun

/-- Only a header byte of 4 or more is refused as reserved. -/
theorem decode_eq_reservedHeader {bytes : List Byte} {header : Byte}
    (h : decode bytes = .error (.reservedHeader header)) :
    4 ≤ header.toNat ∧ ∃ rest, bytes = header :: rest := by
  cases bytes with
  | nil => cases h
  | cons b rest =>
    obtain ⟨-, hd⟩ | ⟨-, hd⟩ | ⟨-, hd⟩ | ⟨-, hd⟩ | ⟨hb, hd⟩ := decode_cons b rest <;> rw [hd] at h
    · exact absurd h (decodeSetregs_ne_reservedHeader _ _)
    · exact absurd h (decodeSetvram_ne_reservedHeader _ _)
    · exact absurd h (decodeReadvram_ne_reservedHeader _ _)
    · cases h
    · cases h
      exact ⟨hb, rest, rfl⟩

/-- A proper beginning of a transaction is incomplete: were it a transaction, the missing bytes
would be left over; were its header reserved, so would be that of the whole. -/
theorem decode_of_proper_prefix {i : Instr} {bytes missing : List Byte} (hwf : i.wf = true)
    (hi : i.isModeRow = false) (hmissing : missing ≠ [])
    (h : (encode i).toBytes = bytes ++ missing) : decode bytes = .error .incomplete := by
  have hwhole : decode (bytes ++ missing) = .ok (i, []) := h ▸ decode_encode hwf hi
  cases hd : decode bytes with
  | ok out =>
    have happend := decode_append (i := out.1) (rest := out.2) hd missing
    simp [hwhole, hmissing] at happend
  | error e =>
    cases e with
    | incomplete => rfl
    | reservedHeader header =>
      obtain ⟨hheader, rest, rfl⟩ := decode_eq_reservedHeader hd
      rw [List.cons_append, decode_of_four_le hheader] at hwhole
      cases hwhole

/-! ## The mode key (30_encoding.md R71) -/

/-- The key with the given mode bits and every don't-care bit 0. -/
def keyOfModeBits (m1 m2 m3 : Bool) : Half :=
  (BitVec.ofBool m1).setWidth 16 <<< keyM1 ||| (BitVec.ofBool m2).setWidth 16 <<< keyM2 |||
    (BitVec.ofBool m3).setWidth 16 <<< keyM3

/-- The three mode bits are the bits of the mask 0x1802. -/
theorem key_and_modeMask (key : Half) : key &&& 0x1802#16 =
    keyOfModeBits (key.getLsbD keyM1) (key.getLsbD keyM2) (key.getLsbD keyM3) := by
  ext n hn
  simp only [keyOfModeBits, keyM1, keyM2, keyM3]
  interval_cases n <;> simp

/-- A mask of mode bits sees no don't-care bit of a key. -/
theorem key_and_of_mask {mask : Half} (h : 0x1802#16 &&& mask = mask) (key : Half) :
    key &&& mask =
      keyOfModeBits (key.getLsbD keyM1) (key.getLsbD keyM2) (key.getLsbD keyM3) &&& mask := by
  rw [← key_and_modeMask, BitVec.and_assoc, h]

/-- The decoder of mode keys sees no don't-care bit. -/
theorem decodeKey_eq_decodeKey_modeBits (key : Half) : decodeKey key =
    decodeKey (keyOfModeBits (key.getLsbD keyM1) (key.getLsbD keyM2) (key.getLsbD keyM3)) := by
  rw [← key_and_modeMask]
  simp [decodeKey, keyM1, keyM2, keyM3]

end Sys2Proof

namespace Sys2Proof.Machine

/-- The masks of the table are masks of mode bits. -/
theorem modeRows_mask : ∀ row ∈ modeRows, 0x1802#16 &&& row.2.1 = row.2.1 := by decide

/-- The decoder agrees with the table's match and mask for the eight choices of mode bits. -/
theorem keyOfModeBits_matches : ∀ row ∈ modeRows, ∀ m1 m2 m3 : Bool,
    (keyOfModeBits m1 m2 m3 &&& row.2.1 = row.1 ↔
      decodeKey (keyOfModeBits m1 m2 m3) = row.2.2) := by decide

/-- Issued bytes that spell no transaction are refused by the reason they do not. -/
theorem step_of_decode_error {s : State} {e : DecodeError} (hn : s.raster = none)
    (hin : s.input ≠ []) (hd : decode s.input = .error e) :
    step s = .refused (decodeRefusal e) := by
  obtain ⟨header, operands, hcons⟩ := List.exists_cons_of_ne_nil hin
  rw [hcons] at hd
  simp only [step, fetch, hn, fetchTransaction, hcons, hd]

/-! ## The transactions of the pseudo-transactions (46_host_interface.md R181, R183) -/

theorem exec_setvram_of_inRange {s : State} {offset : Half} {payload : List Byte}
    (hn : s.raster = none) (hoffset : offset.toNat ≤ 16383)
    (hend : offset.toNat + payload.length ≤ 16384) :
    exec (.setvram offset payload) s = .next (s.writeVram offset.toNat payload).succeed := by
  have hrange : ¬vramOutOfRange offset payload = true := by
    rw [vramOutOfRange_iff]
    omega
  exact perform_eq_next.2 ⟨hn, if_neg hrange⟩

theorem exec_setregs_toList {s : State} (hn : s.raster = none) (regs : Vector Byte 8) :
    exec (.setregs regs.toList) s = .next (s.setRegs regs).succeed := by
  refine perform_eq_next.2 ⟨hn, ?_⟩
  rw [payloadRegs_eq_some.2 rfl]

/-- Eight bytes are a register bank. -/
theorem exists_regs_of_length {payload : List Byte} (h : payload.length = 8) :
    ∃ regs : Vector Byte 8, regs.toList = payload := by
  cases hp : payloadRegs payload with
  | some regs => exact ⟨regs, payloadRegs_eq_some.1 hp⟩
  | none => exact absurd h (payloadRegs_eq_none.1 hp)

/-- A read of VRAM after consecutive byte writes inside it. -/
theorem memRead_writeBytes {m : Memory} {offset a : Nat} {bytes : List Byte}
    (hwf : Memory.wf m = true) (hend : offset + bytes.length ≤ vramSize) (ha : a < vramSize) :
    memRead (Memory.writeBytes m offset bytes) a =
      if h : offset ≤ a ∧ a < offset + bytes.length then bytes[a - offset]'(by omega)
      else memRead m a := by
  rw [memRead_of_lt ha, memRead_of_lt ha, Memory.read_writeBytes hend hwf]

end Sys2Proof.Machine

open Sys2Proof Sys2Proof.Machine

/-- Settles O1 by `decode_encode_append`: LEN says how many of the bytes after it are payload. -/
theorem decodeOfEncodedTransaction : Obligations.DecodeOfEncodedTransaction :=
  fun _ rest hwf hi => decode_encode_append hwf hi rest

/-- Settles O2: a transaction by its byte string, a mode row by its match word. -/
theorem decodeOfEncode : Obligations.DecodeOfEncode := by
  intro i hwf
  cases hi : i.isModeRow with
  | false =>
    rw [encode_eq_bytes hi]
    exact decodeCode_bytes (decode_encode hwf hi)
  | true => exact decodeCode_encode_modeRow hi

/-- Settles O3, header by header. -/
theorem encodeOfDecode : Obligations.EncodeOfDecode := by
  intro bytes rest i h
  obtain ⟨hwf, hbytes⟩ := encode_of_decode h
  exact ⟨hwf, decode_isModeRow h, hbytes⟩

/-- Settles O10: the step refuses what does not decode, and a proper beginning does not. -/
theorem incompleteTransactionRefused : Obligations.IncompleteTransactionRefused :=
  fun _ _ _ hwf hi hn hin hmissing h =>
    step_of_decode_error hn hin (decode_of_proper_prefix hwf hi hmissing h)

/-- Settles O57: SETVRAM of the first 16384 bytes, then SETREGS of the last 8. -/
theorem loadDumpSetsVramAndRegs : Obligations.LoadDumpSetsVramAndRegs := by
  intro s dump hn hwf h
  have hvram : (dump.take vramSize).length = 16384 := by simp [h, vramSize]
  obtain ⟨regs, hregs⟩ :=
    exists_regs_of_length (payload := dump.drop vramSize) (by simp [h, vramSize])
  have hset : exec (.setvram 0x0000#16 (dump.take vramSize)) s =
      .next (s.writeVram 0 (dump.take vramSize)).succeed :=
    exec_setvram_of_inRange hn (by decide) (by simp [hvram])
  have hload := exec_setregs_toList (s := (s.writeVram 0 (dump.take vramSize)).succeed) hn regs
  refine ⟨((s.writeVram 0 (dump.take vramSize)).succeed.setRegs regs).succeed, ?_,
    fun a ha => ?_, fun n => ?_, rfl, rfl⟩
  · rw [AsmLine.expand, ← hregs, performAll_cons hset, performAll_cons hload, performAll]
  · have hread := memRead_writeBytes (offset := 0) (bytes := dump.take vramSize) hwf
      (by simp [vramSize]) ha
    simpa [hvram, ha] using hread
  · have hbyte : regs.toList[n.val]? = (dump.drop vramSize)[n.val]? := by rw [hregs]
    simpa [h, vramSize] using hbyte

/-- Settles O58: FILLVRAM is one in-range SETVRAM of `n` equal bytes. -/
theorem fillVramFillsWindow : Obligations.FillVramFillsWindow := by
  intro s offset n v hn hwf hoffset hend
  have hset := exec_setvram_of_inRange (payload := List.replicate n v) hn hoffset (by simpa)
  refine ⟨_, performAll_cons hset, fun a ha => ?_, rfl⟩
  have hread := memRead_writeBytes (bytes := List.replicate n v) hwf (by simpa [vramSize]) ha
  simpa using hread

/-- Settles O4: match, mask and decoder see the three mode bits alone, which leaves eight keys. -/
theorem modeKeyMatchesTable : Obligations.ModeKeyMatchesTable := by
  intro row hrow key
  rw [key_and_of_mask (modeRows_mask row hrow), decodeKey_eq_decodeKey_modeBits]
  exact keyOfModeBits_matches row hrow _ _ _

/-- Settles O5: the step refuses what does not decode, by its header. -/
theorem reservedHeaderRefused : Obligations.ReservedHeaderRefused := by
  intro s header rest hn hin hheader
  have hd : decode s.input = .error (.reservedHeader header) :=
    hin ▸ decode_of_four_le hheader rest
  exact step_of_decode_error hn (hin ▸ List.cons_ne_nil _ _) hd

/-- Settles O6, by evaluating the decoder on each word. -/
theorem sampleWordsDecode : Obligations.SampleWordsDecode :=
  ⟨rfl, rfl, rfl, rfl, by decide⟩

/-- Settles O37: both rows make the pixel in Graphics I. -/
theorem modeG1UndocMakesG1Pixel : Obligations.ModeG1UndocMakesG1Pixel := by
  intro s r hr hundoc
  have hmode : rowMode .modeG1UndocM1M2 s = .g1 := hundoc
  refine ⟨rasterPixel .g1 s r, ?_, exec_modeRow_of_some rfl hr, ?_⟩
  · rw [exec_modeRow_of_some rfl hr, hmode]
  · simp [pixelsSoFar_rasterPixel, madePixel_pixels]
end

section
/-! PROOFS. The statements about the register decoder (41_register_decoder.md), and about the
register bits that reach no pixel. -/

namespace Sys2Proof.Machine

/-! ## Table bases as numbers (R102 to R110) -/

/-- A base is its field times a power of two, where the field shifted fits in 14 bits (R69). -/
theorem tableBase_toNat {w shift : Nat} (field : BitVec w) (h : w + shift ≤ 14) :
    (tableBase field shift).toNat = field.toNat * 2 ^ shift := by
  have hlt : field.toNat * 2 ^ shift < 2 ^ 14 :=
    calc field.toNat * 2 ^ shift
      _ < 2 ^ w * 2 ^ shift := Nat.mul_lt_mul_of_pos_right field.isLt (Nat.two_pow_pos shift)
      _ = 2 ^ (w + shift) := (pow_add 2 w shift).symm
      _ ≤ 2 ^ 14 := Nat.pow_le_pow_right Nat.two_pos h
  rw [tableBase, BitVec.toNat_shiftLeft, BitVec.toNat_setWidth_of_le (by omega),
    Nat.shiftLeft_eq, Nat.mod_eq_of_lt hlt]

/-- A mask is its field as a base, plus the low address bits below the field. -/
theorem tableBase_or_toNat {w shift : Nat} (field : BitVec w) (h : w + shift ≤ 14) {low : Addr}
    (hlow : low.toNat < 2 ^ shift) :
    (tableBase field shift ||| low).toNat = field.toNat * 2 ^ shift + low.toNat := by
  rw [BitVec.toNat_or, tableBase_toNat field h, ← Nat.shiftLeft_eq,
    Nat.shiftLeft_add_eq_or_of_lt hlow]

/-- A base from the `len` bits of a register byte above bit `start`. -/
theorem tableBase_extractLsb'_toNat (r : Byte) (start : Nat) {len shift : Nat}
    (h : len + shift ≤ 14) : (tableBase (r.extractLsb' start len) shift).toNat =
      r.toNat / 2 ^ start % 2 ^ len * 2 ^ shift := by
  rw [tableBase_toNat _ h, BitVec.extractLsb'_toNat, Nat.shiftRight_eq_div_pow]

/-- A base from the `len` low bits of a register byte. -/
theorem tableBase_lowBits_toNat (r : Byte) {len shift : Nat} (h : len + shift ≤ 14) :
    (tableBase (r.extractLsb' 0 len) shift).toNat = r.toNat % 2 ^ len * 2 ^ shift := by
  rw [tableBase_toNat _ h, BitVec.extractLsb'_toNat, Nat.shiftRight_zero]

/-- A mask from the `len` low bits of a register byte. -/
theorem tableBase_lowBits_or_toNat (r : Byte) {len shift : Nat} (h : len + shift ≤ 14)
    {low : Addr} (hlow : low.toNat < 2 ^ shift) :
    (tableBase (r.extractLsb' 0 len) shift ||| low).toNat =
      r.toNat % 2 ^ len * 2 ^ shift + low.toNat := by
  rw [tableBase_or_toNat _ h hlow, BitVec.extractLsb'_toNat, Nat.shiftRight_zero]

section
variable (r : Byte)

theorem ntBase_toNat : (ntBase r).toNat = r.toNat % 16 * 1024 :=
  tableBase_lowBits_toNat r (len := 4) (shift := 10) (by decide)

theorem saBase_toNat : (saBase r).toNat = r.toNat % 128 * 128 :=
  tableBase_lowBits_toNat r (len := 7) (shift := 7) (by decide)

theorem spBase_toNat : (spBase r).toNat = r.toNat % 8 * 2048 :=
  tableBase_lowBits_toNat r (len := 3) (shift := 11) (by decide)

theorem ctBase_toNat : (ctBase r).toNat = r.toNat * 64 :=
  tableBase_toNat r (by decide)

theorem pgBase_toNat : (pgBase r).toNat = r.toNat % 8 * 2048 :=
  tableBase_lowBits_toNat r (len := 3) (shift := 11) (by decide)

theorem ctBaseG2_toNat : (ctBaseG2 r).toNat = r.toNat / 128 * 8192 := by
  have h := tableBase_extractLsb'_toNat r 7 (len := 1) (shift := 13) (by decide)
  have hbit : r.toNat / 128 % 2 = r.toNat / 128 := by omega
  rw [← hbit]
  exact h

theorem pgBaseG2_toNat : (pgBaseG2 r).toNat = r.toNat / 4 % 2 * 8192 :=
  tableBase_extractLsb'_toNat r 2 (len := 1) (shift := 13) (by decide)

theorem ctMaskG2_toNat : (ctMaskG2 r).toNat = r.toNat % 128 * 64 + 63 :=
  tableBase_lowBits_or_toNat r (len := 7) (shift := 6) (by decide) (by decide)

theorem pgMaskG2_toNat : (pgMaskG2 r).toNat = r.toNat % 4 * 2048 + 2047 :=
  tableBase_lowBits_or_toNat r (len := 2) (shift := 11) (by decide) (by decide)

theorem highNibble_toNat : (highNibble r).toNat = r.toNat / 16 := by
  rw [highNibble, BitVec.extractLsb'_toNat, Nat.shiftRight_eq_div_pow]
  omega

theorem lowNibble_toNat : (lowNibble r).toNat = r.toNat % 16 :=
  BitVec.extractLsb'_toNat 0 4 r

end

/-! ## The decode record, case by case -/

/-- The colour and pattern tables outside Graphics II (R103, R105). -/
theorem decodeAs_tables_of_ne_g2 {m : Mode} (hm : m ≠ .g2) (regs : Vector Byte 8) :
    (decodeAs m regs).ct = ctBase regs[3] ∧ (decodeAs m regs).ctmask = fullMask ∧
      (decodeAs m regs).pg = pgBase regs[4] ∧ (decodeAs m regs).pgmask = fullMask :=
  ⟨if_neg hm, if_neg hm, if_neg hm, if_neg hm⟩

/-- The colour and pattern tables in Graphics II (R104, R106). -/
theorem decodeAs_tables_g2 (regs : Vector Byte 8) :
    (decodeAs .g2 regs).ct = ctBaseG2 regs[3] ∧ (decodeAs .g2 regs).ctmask = ctMaskG2 regs[3] ∧
      (decodeAs .g2 regs).pg = pgBaseG2 regs[4] ∧ (decodeAs .g2 regs).pgmask = pgMaskG2 regs[4] :=
  ⟨rfl, rfl, rfl, rfl⟩

/-- The displayed extent is the source size, doubled by magnification (R100). -/
theorem Fields.extent_eq (d : Fields) :
    d.extent = (if d.size16 then 16 else 8) * (if d.mag then 2 else 1) := by
  rw [Fields.extent, Fields.sourceSize, Nat.shiftLeft_eq]
  cases d.mag <;> rfl

/-- The default `P_UNDOC_MODE` gives M3 precedence, and Graphics I to M1 with M2 (R93). -/
theorem selectMode_referenceUndoc : ∀ m1 m2 m3 : Bool, selectMode referenceUndoc m1 m2 m3 =
    if m3 = true then .g2
    else if m1 = true ∧ m2 = false then .tx
    else if m1 = false ∧ m2 = true then .mc
    else .g1 := by decide

/-! ## A blanked screen (R97) -/

section
variable (p : Params) {d : Fields} (vram : Memory)

theorem background_of_blanked (h : d.blankN = false) (x y : Nat) :
    background p d vram x y = 0#4 := by
  simp [background, h]

theorem engineRuns_of_blanked (h : d.blankN = false) : engineRuns d = false := by
  simp [engineRuns, h]

/-- With the engine off no column of a scanline has a sprite colour (R151, R152). -/
theorem spriteLayer_of_not_runs (h : engineRuns d = false) (y : Nat) (x : Fin 256) :
    (spriteLayer p d vram y)[x] = 0#4 := by
  simp [spriteLayer, lineSprites, h, LineState.start]

/-- Every pixel of a blanked screen is the backdrop colour. -/
theorem pixelAt_of_blanked (h : d.blankN = false) (x : Fin 256) (y : Fin 192) :
    pixelAt p d vram (spriteLayer p d vram y.val) x y = paletteRgb p d.bd := by
  rw [pixelAt, pixelIndex, spriteLayer_of_not_runs p vram (engineRuns_of_blanked h),
    background_of_blanked p vram h]
  rfl

/-- Every pixel of a frame is the pixel at some column of some scanline. -/
theorem exists_pixelAt_of_mem_frame {c : Rgb} (hc : c ∈ (renderFields p d vram).frame) :
    ∃ (x : Fin 256) (y : Fin 192), pixelAt p d vram (spriteLayer p d vram y.val) x y = c := by
  rw [renderFields_frame] at hc
  obtain ⟨y, -, hrow⟩ := List.mem_flatMap.1 hc
  obtain ⟨x, -, hx⟩ := List.mem_map.1 hrow
  exact ⟨x, y, hx⟩

theorem renderFields_frame_of_blanked (h : d.blankN = false) :
    (renderFields p d vram).frame = List.replicate 49152 (paletteRgb p d.bd) := by
  refine List.eq_replicate_iff.2 ⟨renderFields_length p d vram, fun c hc => ?_⟩
  obtain ⟨x, y, rfl⟩ := exists_pixelAt_of_mem_frame p vram hc
  exact pixelAt_of_blanked p vram h x y

end

/-! ## The register bits that reach no output (R19, R94, R95) -/

/-- The decode record with the two fields no rule reads, EXTVID and VR16K, cleared (R94, R95). -/
def Fields.dropUnread (d : Fields) : Fields :=
  { d with extvid := false, vr16k := false }

section
variable (p : Params) (d : Fields) (vram : Memory)

theorem scanSprites_dropUnread (y : Nat) (is : List (Fin 32)) (active : List ActiveSprite) :
    scanSprites d.dropUnread vram y is active = scanSprites d vram y is active := by
  induction is generalizing active with
  | nil => rfl
  | cons i is ih =>
    simp only [scanSprites, ih]
    rfl

theorem lineSprites_dropUnread (y : Nat) (acc : FrameAcc) :
    lineSprites p d.dropUnread vram y acc = lineSprites p d vram y acc := by
  simp only [lineSprites, spriteLine, scanLine, scanSprites_dropUnread]
  rfl

theorem frameRow_dropUnread (scol : Vector Colour 256) (y : Fin 192) :
    frameRow p d.dropUnread vram scol y = frameRow p d vram scol y := rfl

theorem renderLines_dropUnread (ys : List (Fin 192)) (acc : FrameAcc) :
    renderLines p d.dropUnread vram ys acc = renderLines p d vram ys acc := by
  induction ys generalizing acc with
  | nil => rfl
  | cons y ys ih => simp only [renderLines, lineSprites_dropUnread, frameRow_dropUnread, ih]

/-- EXTVID and VR16K reach no output of a RENDER. -/
theorem renderFields_dropUnread : renderFields p d.dropUnread vram = renderFields p d vram := by
  simp only [renderFields, renderLines_dropUnread]
  rfl

end

/-- A register bank with every bit that `usedBits` leaves out cleared. -/
def clearUnused (regs : Vector Byte 8) : Vector Byte 8 :=
  Vector.ofFn fun n => regs[n] &&& usedBits[n]

theorem clearUnused_congr {regs regs' : Vector Byte 8}
    (h : ∀ n : Fin 8, regs[n] &&& usedBits[n] = regs'[n] &&& usedBits[n]) :
    clearUnused regs = clearUnused regs' :=
  congrArg Vector.ofFn (funext h)

/-- A field inside a mask does not see the bits the mask clears. -/
theorem extractLsb'_and_of_mask {start len : Nat} {mask : Byte}
    (h : mask.extractLsb' start len = BitVec.allOnes len) (r : Byte) :
    (r &&& mask).extractLsb' start len = r.extractLsb' start len := by
  rw [BitVec.extractLsb'_and, h, BitVec.and_allOnes]

/-- The unused register bits decode to EXTVID and VR16K at most. -/
theorem decodeAs_clearUnused (m : Mode) (regs : Vector Byte 8) :
    decodeAs m (clearUnused regs) = (decodeAs m regs).dropUnread := by
  have hfull (r : Byte) : r &&& 0xFF#8 = r := BitVec.and_allOnes
  simp (disch := decide) [decodeAs, clearUnused, usedBits, Fields.dropUnread, ntBase, pgBase,
    pgBaseG2, pgMaskG2, saBase, spBase, extractLsb'_and_of_mask, hfull]

/-- The unused bits do not reach the mode. -/
theorem modeOf_clearUnused (p : Params) (regs : Vector Byte 8) :
    modeOf p (clearUnused regs) = modeOf p regs := by
  simp [modeOf, regM1, regM2, regM3, clearUnused, usedBits]

/-- The unused bits reach no output of a RENDER. -/
theorem render_clearUnused (p : Params) (regs : Vector Byte 8) (vram : Memory) :
    render p (clearUnused regs) vram = render p regs vram := by
  rw [render, decodeRegs, modeOf_clearUnused, decodeAs_clearUnused, renderFields_dropUnread]
  rfl

end Sys2Proof.Machine

open Sys2Proof Sys2Proof.Machine

/-- Settles O19: no background and no sprite colour leaves the backdrop, and the accumulators never
move. -/
theorem blankedScreenIsBackdrop : Obligations.BlankedScreenIsBackdrop := by
  intro p regs vram h
  have hblank : (decodeRegs p regs).blankN = false := h
  refine ⟨renderFields_frame_of_blanked p vram hblank, ?_⟩
  rw [render_status, accAfter_of_not_runs (engineRuns_of_blanked hblank) le_rfl]
  rfl

/-- Settles O21: both banks give the picture of the one bank with their unused bits cleared. -/
theorem unusedRegisterBitsNoEffect : Obligations.UnusedRegisterBitsNoEffect := by
  intro p regs regs' vram h
  rw [← render_clearUnused p regs, clearUnused_congr h, render_clearUnused]

/-- Settles O31, base by base. -/
theorem commonFieldsDecode : Obligations.CommonFieldsDecode :=
  fun _ regs => ⟨ntBase_toNat regs[2], saBase_toNat regs[5], spBase_toNat regs[6],
    highNibble_toNat regs[7], lowNibble_toNat regs[7]⟩

/-- Settles O33, by the mode. -/
theorem colourAndPatternBasesDecode : Obligations.ColourAndPatternBasesDecode := by
  intro p regs
  refine ⟨fun (hm : modeOf p regs ≠ .g2) => ?_, fun (hm : modeOf p regs = .g2) => ?_⟩
  · obtain ⟨hct, hctmask, hpg, hpgmask⟩ := decodeAs_tables_of_ne_g2 hm regs
    rw [decodeRegs, hct, hctmask, hpg, hpgmask]
    exact ⟨ctBase_toNat _, rfl, pgBase_toNat _, rfl⟩
  · obtain ⟨hct, hctmask, hpg, hpgmask⟩ := decodeAs_tables_g2 regs
    rw [decodeRegs, hm, hct, hctmask, hpg, hpgmask]
    exact ⟨ctBaseG2_toNat _, ctMaskG2_toNat _, pgBaseG2_toNat _, pgMaskG2_toNat _⟩

/-- Settles O32: no parameter and no other register bit reaches the extent. -/
theorem spriteExtentDecode : Obligations.SpriteExtentDecode :=
  fun p regs => (decodeRegs p regs).extent_eq

/-- Settles O34, on the eight choices of mode bits. -/
theorem modeOfModeBits : Obligations.ModeOfModeBits :=
  fun regs => selectMode_referenceUndoc (regM1 regs) (regM2 regs) (regM3 regs)
end

section
/-! PROOFS. The statement about the VRAM address resolver (42_address_resolver.md): no address
passes 0x3FFF (R131). An adding rule has its largest base and its largest offset fit together; a
masking rule has no bit above the 14 of its base and mask. -/

namespace Sys2Proof.Machine

/-! ## The largest bases (R102 to R110) -/

section
variable {m : Mode} (regs : Vector Byte 8)

theorem decodeAs_nt_le : (decodeAs m regs).nt.toNat ≤ 0x3C00 := by
  have hnt : (decodeAs m regs).nt.toNat = regs[2].toNat % 16 * 1024 := ntBase_toNat regs[2]
  omega

theorem decodeAs_sa_le : (decodeAs m regs).sa.toNat ≤ 0x3F80 := by
  have hsa : (decodeAs m regs).sa.toNat = regs[5].toNat % 128 * 128 := saBase_toNat regs[5]
  omega

theorem decodeAs_sp_le : (decodeAs m regs).sp.toNat ≤ 0x3800 := by
  have hsp : (decodeAs m regs).sp.toNat = regs[6].toNat % 8 * 2048 := spBase_toNat regs[6]
  omega

theorem decodeAs_ct_le_of_ne_g2 (hm : m ≠ .g2) : (decodeAs m regs).ct.toNat ≤ 0x3FC0 := by
  obtain ⟨hct, -, -, -⟩ := decodeAs_tables_of_ne_g2 hm regs
  have hbyte : regs[3].toNat < 256 := regs[3].isLt
  rw [hct, ctBase_toNat]
  omega

theorem decodeAs_pg_le_of_ne_g2 (hm : m ≠ .g2) : (decodeAs m regs).pg.toNat ≤ 0x3800 := by
  obtain ⟨-, -, hpg, -⟩ := decodeAs_tables_of_ne_g2 hm regs
  rw [hpg, pgBase_toNat]
  omega

end

/-! ## Adding address rules (R120 to R122, R126 to R130) -/

section
variable {d : Fields} {name line : Nat}

/-- The tables of 24 rows hold at most 960 cells. -/
theorem nameAddr_lt (hnt : d.nt.toNat ≤ 0x3C00) {row col : Nat} (hrow : row < 24)
    (hcol : col < nameWidth d.mode) : nameAddr d row col < 16384 := by
  have hwidth : nameWidth d.mode ≤ 40 := by rw [nameWidth]; split <;> decide
  have hcells : row * nameWidth d.mode ≤ 23 * 40 := Nat.mul_le_mul (by omega) hwidth
  rw [nameAddr]
  omega

theorem g1PatAddr_lt (hpg : d.pg.toNat ≤ 0x3800) (hname : name < 256) (hline : line < 8) :
    g1PatAddr d name line < 16384 := by
  rw [g1PatAddr]
  omega

theorem g1ColAddr_lt (hct : d.ct.toNat ≤ 0x3FC0) (hname : name < 256) :
    g1ColAddr d name < 16384 := by
  rw [g1ColAddr, Nat.shiftRight_eq_div_pow]
  omega

/-- The row's pair of lines within the cell and the line's half of the pair stay below 8. -/
theorem mcAddr_lt (hpg : d.pg.toNat ≤ 0x3800) (hname : name < 256) (row y : Nat) :
    mcAddr d name row y < 16384 := by
  have hpair : row &&& 3 ≤ 3 := Nat.and_le_right
  have hhalf : (y >>> 2) &&& 1 ≤ 1 := Nat.and_le_right
  rw [mcAddr, Nat.shiftLeft_eq]
  omega

theorem txPatAddr_lt (hpg : d.pg.toNat ≤ 0x3800) (hname : name < 256) (hline : line < 8) :
    txPatAddr d name line < 16384 :=
  g1PatAddr_lt hpg hname hline

theorem attrAddr_lt (hsa : d.sa.toNat ≤ 0x3F80) (i : Fin 32) {k : Nat} (hk : k < 4) :
    attrAddr d i k < 16384 := by
  rw [attrAddr]
  omega

section
variable (hsp : d.sp.toNat ≤ 0x3800)
include hsp

theorem spAddr_lt {r : Nat} (hname : name < 256) (hr : r < 8) : spAddr d name r < 16384 := by
  rw [spAddr]
  omega

/-- The last 16×16 pattern starts 32 bytes below the end of the table, whatever NAME is. -/
theorem spBase16_le (name : Nat) : spBase16 d name ≤ 0x3FE0 := by
  have hname : name &&& 0xFC ≤ 0xFC := Nat.and_le_right
  rw [spBase16]
  omega

theorem spAddrL_lt (name : Nat) {r : Nat} (hr : r < 16) : spAddrL d name r < 16384 := by
  have hbase := spBase16_le hsp name
  rw [spAddrL]
  omega

theorem spAddrR_lt (name : Nat) {r : Nat} (hr : r < 16) : spAddrR d name r < 16384 := by
  have hbase := spBase16_le hsp name
  rw [spAddrR]
  omega

end

end

/-! ## Masking address rules (R124, R125) -/

/-- A base OR a masked offset has no bit above the 14 of base and mask, whatever the offset. -/
theorem toNat_or_and_toNat_lt (base mask : Addr) (off : Nat) :
    base.toNat ||| (off &&& mask.toNat) < 16384 :=
  Nat.or_lt_two_pow (n := 14) base.isLt (Nat.and_lt_two_pow off mask.isLt)

theorem g2PatAddr_lt (d : Fields) (third name line : Nat) : g2PatAddr d third name line < 16384 :=
  toNat_or_and_toNat_lt d.pg d.pgmask _

theorem g2ColAddr_lt (p : Params) (d : Fields) (third name line : Nat) :
    g2ColAddr p d third name line < 16384 :=
  toNat_or_and_toNat_lt d.ct d.ctmask _

end Sys2Proof.Machine

open Sys2Proof Sys2Proof.Machine

/-- Settles O35, address rule by address rule; outside Graphics II the decoded bases leave
room for the offset, and in it no address is wider than base and mask. -/
theorem resolverAddressesInVram : Obligations.ResolverAddressesInVram := by
  intro p m regs row col name line third y srow k i d hrow hcol hname hline _ hsrow hk
  have hsp : d.sp.toNat ≤ 0x3800 := decodeAs_sp_le regs
  have hpg : m ≠ .g2 → d.pg.toNat ≤ 0x3800 := decodeAs_pg_le_of_ne_g2 regs
  have hct : m ≠ .g2 → d.ct.toNat ≤ 0x3FC0 := decodeAs_ct_le_of_ne_g2 regs
  refine ⟨nameAddr_lt (decodeAs_nt_le regs) hrow hcol, fun hm => ?g1, fun _ => ?g2,
    fun hm => ?mc, fun hm => ?tx, attrAddr_lt (decodeAs_sa_le regs) i hk,
    spAddr_lt hsp hname, spAddrL_lt hsp name hsrow, spAddrR_lt hsp name hsrow⟩
  case g1 =>
    have hm' : m ≠ .g2 := by simp [hm]
    exact ⟨g1PatAddr_lt (hpg hm') hname hline, g1ColAddr_lt (hct hm') hname⟩
  case g2 => exact ⟨g2PatAddr_lt d third name line, g2ColAddr_lt p d third name line⟩
  case mc => exact mcAddr_lt (hpg (by simp [hm])) hname row y
  case tx => exact txPatAddr_lt (hpg (by simp [hm])) hname hline
end

section
/-! PROOFS. The statements about the background of a pixel in each mode
(43_background_renderer.md), and about the mode rows that show it. -/

namespace Sys2Proof.Machine

/-! ## The addresses of a pixel, with div and mod for shift and mask (R117 to R127) -/

theorem cellOf_eq_div (v : Nat) : cellOf v = v / 8 :=
  Nat.shiftRight_eq_div_pow v 3

theorem withinCell_eq_mod (v : Nat) : withinCell v = v % 8 :=
  Nat.and_two_pow_sub_one_eq_mod v 3

theorem g1ColAddr_eq (d : Fields) (name : Nat) : g1ColAddr d name = d.ct.toNat + name / 8 := by
  rw [g1ColAddr, Nat.shiftRight_eq_div_pow]

/-- The third of the screen a line lies in. -/
theorem thirdOf_cellOf (y : Nat) : thirdOf (cellOf y) = y / 64 := by
  rw [cellOf_eq_div, thirdOf, Nat.shiftRight_eq_div_pow, Nat.div_div_eq_div_mul]

/-- The three parts of a Graphics II offset do not overlap, so OR is addition. -/
theorem g2Offset_eq {name line : Nat} (third : Nat) (hname : name < 256) (hline : line < 8) :
    g2Offset third name line = third * 2048 + name * 8 + line := by
  have hlow : name <<< 3 ||| line = name * 8 + line := by
    rw [← Nat.shiftLeft_add_eq_or_of_lt hline, Nat.shiftLeft_eq]
  have hlt : name * 8 + line < 2 ^ 11 := by omega
  rw [g2Offset, Nat.or_assoc, hlow, ← Nat.shiftLeft_add_eq_or_of_lt hlt, Nat.shiftLeft_eq,
    Nat.add_assoc]

/-- One colour byte per cell: the two parts of the offset do not overlap either. -/
theorem g2CellOffset_eq {name : Nat} (third : Nat) (hname : name < 256) :
    third <<< 8 ||| name = third * 256 + name := by
  rw [← Nat.shiftLeft_add_eq_or_of_lt hname, Nat.shiftLeft_eq]

section
variable (d : Fields) {name line : Nat} (third : Nat)

theorem g2PatAddr_eq (hname : name < 256) (hline : line < 8) : g2PatAddr d third name line =
    d.pg.toNat ||| ((third * 2048 + name * 8 + line) &&& d.pgmask.toNat) := by
  rw [g2PatAddr, g2Offset_eq third hname hline]

theorem g2ColAddr_eq (p : Params) (hname : name < 256) (hline : line < 8) :
    g2ColAddr p d third name line = d.ct.toNat |||
      ((if p.giiColorPerRow then third * 2048 + name * 8 + line else third * 256 + name) &&&
        d.ctmask.toNat) := by
  rw [g2ColAddr, g2Offset_eq third hname hline, g2CellOffset_eq third hname]

end

theorem mcAddr_eq (d : Fields) (name row y : Nat) :
    mcAddr d name row y = d.pg.toNat + name * 8 + row % 4 * 2 + y / 4 % 2 := by
  have hpair : row &&& 3 = row % 4 := Nat.and_two_pow_sub_one_eq_mod row 2
  have hhalf : (y >>> 2) &&& 1 = y / 4 % 2 := by
    rw [Nat.and_one_is_mod, Nat.shiftRight_eq_div_pow]
  rw [mcAddr, hpair, hhalf, Nat.shiftLeft_eq]

/-! ## The background colour in each mode (R139 to R146) -/

section
variable {d : Fields} (vram : Memory) (x y : Nat)

/-- Outside Text mode the name table is 32 cells wide (R120). -/
theorem cellName_eq (hm : d.mode ≠ .tx) : cellName d vram x y =
    (memRead vram (d.nt.toNat + y / 8 * 32 + x / 8)).toNat := by
  rw [cellName, nameAddr, nameWidth, if_neg hm, cellOf_eq_div, cellOf_eq_div]

theorem bgG1_eq (hm : d.mode ≠ .tx) : bgG1 d vram x y =
    let name := (memRead vram (d.nt.toNat + y / 8 * 32 + x / 8)).toNat
    selectColour (patternBit (memRead vram (d.pg.toNat + name * 8 + y % 8)) (x % 8))
      (memRead vram (d.ct.toNat + name / 8)) := by
  simp only [bgG1, cellName_eq vram x y hm, g1PatAddr, g1ColAddr_eq, withinCell_eq_mod]

theorem bgG2_eq (p : Params) (hm : d.mode ≠ .tx) : bgG2 p d vram x y =
    let name := (memRead vram (d.nt.toNat + y / 8 * 32 + x / 8)).toNat
    let off := y / 64 * 2048 + name * 8 + y % 8
    let coff := if p.giiColorPerRow then off else y / 64 * 256 + name
    selectColour (patternBit (memRead vram (d.pg.toNat ||| (off &&& d.pgmask.toNat))) (x % 8))
      (memRead vram (d.ct.toNat ||| (coff &&& d.ctmask.toNat))) := by
  have hname : (memRead vram (d.nt.toNat + y / 8 * 32 + x / 8)).toNat < 256 := BitVec.isLt _
  have hline : y % 8 < 8 := Nat.mod_lt y (by decide)
  simp only [bgG2, cellName_eq vram x y hm, thirdOf_cellOf, withinCell_eq_mod,
    g2PatAddr_eq d _ hname hline, g2ColAddr_eq d _ p hname hline]

theorem bgMC_eq (hm : d.mode ≠ .tx) : bgMC d vram x y =
    let name := (memRead vram (d.nt.toNat + y / 8 * 32 + x / 8)).toNat
    let mbyte := memRead vram (d.pg.toNat + name * 8 + y / 8 % 4 * 2 + y / 4 % 2)
    if x % 8 < 4 then highNibble mbyte else lowNibble mbyte := by
  simp only [bgMC, cellName_eq vram x y hm, mcAddr_eq, withinCell_eq_mod, cellOf_eq_div]

/-- In Text mode the name table is 40 cells wide (R120). -/
theorem textBit_eq (hm : d.mode = .tx) : textBit d vram x y =
    let name := (memRead vram (d.nt.toNat + y / 8 * 40 + (x - 8) / 6)).toNat
    patternBit (memRead vram (d.pg.toNat + name * 8 + y % 8)) ((x - 8) % 6) := by
  simp only [textBit, nameAddr, nameWidth, if_pos hm, txPatAddr, cellOf_eq_div,
    withinCell_eq_mod, textCol, textPx]

theorem bgTX_eq (hm : d.mode = .tx) : bgTX d vram x y =
    let name := (memRead vram (d.nt.toNat + y / 8 * 40 + (x - 8) / 6)).toNat
    let pbyte := memRead vram (d.pg.toNat + name * 8 + y % 8)
    if x < 8 ∨ 248 ≤ x then d.bd
    else if patternBit pbyte ((x - 8) % 6) then d.tc else d.bd := by
  simp only [bgTX, textBorder, decide_eq_true_eq, textBit_eq vram x y hm]

/-- A Text column reads bits 7 to 2 of a pattern byte only (R145). -/
theorem patternBit_textPx (pbyte : Byte) :
    patternBit pbyte (textPx x) = (pbyte >>> 2).getLsbD (5 - textPx x) := by
  have hpx : textPx x < 6 := Nat.mod_lt _ (by decide)
  rw [patternBit, BitVec.getLsbD_ushiftRight, show 7 - textPx x = 2 + (5 - textPx x) by omega]

/-- With the display enabled the mode alone decides (R138). -/
theorem background_of_enabled (p : Params) (h : d.blankN = true) :
    background p d vram x y = bgOfMode p d vram x y :=
  if_pos h

theorem bgOfMode_g1 (p : Params) (h : d.mode = .g1) :
    bgOfMode p d vram x y = bgG1 d vram x y := by
  rw [bgOfMode, h]

end

/-! ## What a mode row adds to the pixels of a RENDER in progress -/

/-- A row of mode `m` completes, and the pixel it adds is sprite over background over backdrop,
with the registers read in that mode (R138, R177). -/
theorem exists_exec_modeRow_pixel {i : Instr} {s : State} {r : Raster} {m : Mode} {bg : Colour}
    (hi : i.isModeRow = true) (hm : rowMode i s = m) (hr : s.raster = some r)
    (hbg : background s.params (decodeAs m s.regs) s.vram r.x.val r.y.val = bg) :
    ∃ t, exec i s = .next t ∧ pixelsSoFar t = r.pixels ++
      [paletteRgb s.params (compose (spriteAtRaster s.params (decodeAs m s.regs) s.vram r) bg
        (decodeAs m s.regs).bd)] := by
  refine ⟨_, exec_modeRow_of_some hi hr, ?_⟩
  rw [pixelsSoFar_rasterPixel, madePixel_pixels, hm, hbg]

/-- With the display disabled there is no sprite colour at the raster position, in whatever mode a
row reads the registers: the sprite engine leaves none behind and finds none (R151). -/
theorem Raster.Inv.spriteAtRaster_of_blanked {p : Params} {regs : Vector Byte 8} {vram : Memory}
    {r : Raster} (h : r.Inv p regs vram) (hoff : regs[1].getLsbD 6 = false) (m : Mode) :
    spriteAtRaster p (decodeAs m regs) vram r = 0#4 := by
  have hlayer (m' : Mode) : (spriteLayer p (decodeAs m' regs) vram r.y.val)[r.x] = 0#4 :=
    spriteLayer_of_not_runs p vram (engineRuns_of_blanked hoff) r.y.val r.x
  by_cases hx : r.x = 0
  · rw [spriteAtRaster, if_pos hx]
    exact hlayer m
  · have hline := h.line
    rw [if_neg hx] at hline
    rw [spriteAtRaster, if_neg hx, hline]
    exact hlayer (modeOf p regs)

/-! ## A frame of one colour -/

section
variable {p : Params} {d : Fields} {vram : Memory}

/-- A frame whose pixels are all one colour. -/
theorem renderFields_frame_of_forall_pixelAt {c : Rgb}
    (h : ∀ (x : Fin 256) (y : Fin 192), pixelAt p d vram (spriteLayer p d vram y.val) x y = c) :
    (renderFields p d vram).frame = List.replicate 49152 c := by
  refine List.eq_replicate_iff.2 ⟨renderFields_length p d vram, fun c' hc => ?_⟩
  obtain ⟨x, y, rfl⟩ := exists_pixelAt_of_mem_frame p vram hc
  exact h x y

/-- The sentinel in entry 0 leaves no sprite on any line (R153). -/
theorem scanLine_of_sentinel (h : spriteYByte d vram 0 = sentinelY) (y : Nat) :
    scanLine d vram y = ([], none) := by
  rw [scanLine, List.finRange_succ, scanSprites, if_pos h]

/-- The sentinel in entry 0 leaves no column of a line with a sprite colour (R152, R153). -/
theorem spriteLayer_of_sentinel (h : spriteYByte d vram 0 = sentinelY) (y : Nat) (x : Fin 256) :
    (spriteLayer p d vram y)[x] = 0#4 := by
  cases hruns : engineRuns d with
  | false => exact spriteLayer_of_not_runs p vram hruns y x
  | true =>
    simp [spriteLayer, lineSprites, hruns, spriteLine, scanLine_of_sentinel h, drawActive,
      Paint.start, LineState.start]

end

/-- An all-zero pattern shows the background nibble of its colour byte (R139). -/
theorem selectColour_patternBit_zero (column : Nat) (cbyte : Byte) :
    selectColour (patternBit 0x00#8 column) cbyte = lowNibble cbyte := by
  simp [patternBit, selectColour]

/-- With no sprite, a background that is transparent or the backdrop shows the backdrop (R177). -/
theorem compose_zero_of_eq_or_eq_zero {bg backdrop : Colour} (h : bg = backdrop ∨ bg = 0#4) :
    compose 0#4 bg backdrop = backdrop := by
  obtain rfl | rfl := h
  · by_cases hbg : bg = 0#4 <;> simp [compose, hbg]
  · rfl

end Sys2Proof.Machine

open Sys2Proof Sys2Proof.Machine

/-- Settles O36, from what a mode row adds and the Graphics I background. -/
theorem modeG1MakesPixel : Obligations.ModeG1MakesPixel := by
  intro s r hr hon
  exact exists_exec_modeRow_pixel rfl rfl hr
    ((background_of_enabled _ _ _ _ hon).trans (bgG1_eq _ _ _ nofun))

/-- Settles O38, from what a mode row adds and the Graphics II background. -/
theorem modeG2MakesPixel : Obligations.ModeG2MakesPixel := by
  intro s r hr hon hmode
  exact exists_exec_modeRow_pixel rfl hmode hr
    ((background_of_enabled _ _ _ _ hon).trans (bgG2_eq _ _ _ _ nofun))

/-- Settles O39, from what a mode row adds and the Multicolor background. -/
theorem modeMCMakesPixel : Obligations.ModeMCMakesPixel := by
  intro s r hr hon
  exact exists_exec_modeRow_pixel rfl rfl hr
    ((background_of_enabled _ _ _ _ hon).trans (bgMC_eq _ _ _ nofun))

/-- Settles O40, from what a mode row adds and the Text background. -/
theorem modeTXMakesPixel : Obligations.ModeTXMakesPixel := by
  intro s r hr hon
  exact exists_exec_modeRow_pixel rfl rfl hr
    ((background_of_enabled _ _ _ _ hon).trans (bgTX_eq _ _ _ rfl))

/-- Settles O41: neither a sprite nor the background leaves the backdrop. -/
theorem blankedModeRowMakesBackdrop : Obligations.BlankedModeRowMakesBackdrop := by
  intro i s r hs hi hr hoff
  have hpixel := exists_exec_modeRow_pixel hi rfl hr (background_of_blanked _ _ hoff _ _)
  rw [(hs.raster r hr).spriteAtRaster_of_blanked hoff] at hpixel
  exact hpixel

/-- Settles O43: the row the key matches reads the registers in their decoded mode. -/
theorem modeRowFollowsDecodedMode : Obligations.ModeRowFollowsDecodedMode :=
  fun _ _ hr => exec_keyRow_of_some hr

/-- Settles O23: no sprite is selected, and in every cell the background nibble is the backdrop or
transparent. -/
theorem solidFill : Obligations.SolidFill := by
  intro p regs vram k d hon hmode hbd hsentinel hcells
  refine renderFields_frame_of_forall_pixelAt (d := d) fun x y => ?_
  have hentry : spriteYByte d vram 0 = sentinelY := hsentinel
  have hcell : y.val / 8 * 32 + x.val / 8 < 768 := by omega
  obtain ⟨hpattern, hcolour⟩ := hcells _ hcell
  rw [← Nat.add_assoc] at hpattern hcolour
  have hbg : background p d vram x.val y.val = lowNibble (memRead vram (d.ct.toNat +
      (memRead vram (d.nt.toNat + y.val / 8 * 32 + x.val / 8)).toNat / 8)) := by
    rw [background_of_enabled _ _ _ _ hon, bgOfMode_g1 _ _ _ _ hmode,
      bgG1_eq _ _ _ (by simp [hmode])]
    simp only [hpattern (y.val % 8) (Nat.mod_lt _ (by decide)), selectColour_patternBit_zero]
  have hk : background p d vram x.val y.val = k ∨ background p d vram x.val y.val = 0#4 := by
    rw [hbg, ← BitVec.toNat_inj, ← BitVec.toNat_inj, lowNibble_toNat]
    exact hcolour
  rw [pixelAt, pixelIndex, spriteLayer_of_sentinel hentry, hbd, compose_zero_of_eq_or_eq_zero hk]
  rfl

/-- Settles O42: a displayed column reads the byte shifted right by 2. -/
theorem textLowPatternBitsUnshown : Obligations.TextLowPatternBitsUnshown := by
  intro pbyte pbyte' x _ h
  rw [patternBit_textPx, patternBit_textPx, h]
end

section
/-! PROOFS. The statements about the sprite engine (44_sprite_engine.md): the scan of a line, the
columns a sprite covers, what the drawn sprites show and where they collide. -/

namespace Sys2Proof.Machine

/-! ## The scan of a line (R153 to R156, R168) -/

theorem rowInRange_eq_true {extent : Nat} {r : Int} :
    rowInRange extent r = true ↔ 0 ≤ r ∧ r < (extent : Int) := by
  rw [rowInRange, Bool.and_eq_true, decide_eq_true_eq, decide_eq_true_eq]

/-- A Y byte up to 0xE0 is the line above the sprite (R154). -/
theorem spriteTop_of_le {yByte : Byte} (h : yByte.toNat ≤ 0xE0) :
    spriteTop yByte = (yByte.toNat : Int) + 1 := by
  rw [spriteTop, if_neg (Nat.not_lt.2 h)]

/-- A Y byte above 0xE0 is negative (R154). -/
theorem spriteTop_of_lt {yByte : Byte} (h : 0xE0 < yByte.toNat) :
    spriteTop yByte = (yByte.toNat : Int) - 256 + 1 := by
  rw [spriteTop, if_pos h]

/-- In a strictly increasing list what `takeWhile` takes is below every element it rejects. -/
theorem lt_of_mem_takeWhile {α : Type} [LT α] {p : α → Bool} {l : List α}
    (hl : l.Pairwise (· < ·)) {a n : α} (ha : a ∈ l.takeWhile p) (hn : n ∈ l)
    (hp : p n = false) : a < n := by
  induction l with
  | nil => cases hn
  | cons b l ih =>
    obtain ⟨hb, hl⟩ := List.pairwise_cons.1 hl
    rw [List.takeWhile_cons] at ha
    split at ha
    · next hpb =>
      obtain rfl | hnl := List.mem_cons.1 hn
      · exact absurd hpb (Bool.eq_false_iff.1 hp)
      · obtain rfl | hal := List.mem_cons.1 ha
        · exact hb n hnl
        · exact ih hl hal hnl
    · cases ha

section
variable {d : Fields} {vram : Memory} {y : Nat}

theorem rowInRange_of_mem_spritesInRange {i : Fin 32} (h : i ∈ spritesInRange d vram y) :
    rowInRange d.extent (spriteRow y (spriteYByte d vram i)) = true :=
  (List.mem_filter.1 h).2

/-- The sentinel ends the table (R168). -/
theorem lt_sentinel_of_mem_spritesInRange {i n : Fin 32} (hn : spriteYByte d vram n = sentinelY)
    (h : i ∈ spritesInRange d vram y) : i < n :=
  lt_of_mem_takeWhile (List.pairwise_lt_finRange 32) (List.mem_filter.1 h).1 (List.mem_finRange n)
    (by simp [hn])

variable (d vram y)

/-- The scan selects the first four sprites in range, each with its row. -/
theorem scanLine_active : (scanLine d vram y).1 = ((spritesInRange d vram y).take 4).map
    fun i => ⟨i, (spriteRow y (spriteYByte d vram i)).toNat⟩ :=
  (scanSprites_spec d vram y (List.finRange 32) [] (Nat.zero_le 4)).1

/-- The scan reports the sprite in range after those four. -/
theorem scanLine_fifth : (scanLine d vram y).2 = (spritesInRange d vram y)[4]? :=
  (scanSprites_spec d vram y (List.finRange 32) [] (Nat.zero_le 4)).2

variable {d vram y}

/-- A selected sprite is in range, and its row is the displayed row (R155). -/
theorem mem_scanLine_active {a : ActiveSprite} (h : a ∈ (scanLine d vram y).1) :
    a.index ∈ spritesInRange d vram y ∧
      a.row = (spriteRow y (spriteYByte d vram a.index)).toNat := by
  rw [scanLine_active] at h
  obtain ⟨i, hi, rfl⟩ := List.mem_map.1 h
  exact ⟨List.mem_of_mem_take hi, rfl⟩

end

/-! ## The columns a sprite covers (R157 to R161) -/

/-- A shift by MAG halves a coordinate of a magnified sprite (R157, R161). -/
theorem shiftRight_toNat_eq_div (n : Nat) (mag : Bool) :
    n >>> mag.toNat = n / (if mag = true then 2 else 1) := by
  cases mag <;> simp [Nat.shiftRight_eq_div_pow]

theorem Fields.extent_le (d : Fields) : d.extent ≤ 32 := by
  rw [d.extent_eq]
  cases d.size16 <;> cases d.mag <;> decide

theorem spriteCovers_eq_true {p : Params} {d : Fields} {vram : Memory} {a : ActiveSprite}
    {sx : Fin 256} : spriteCovers p d vram a sx = true ↔
      spriteLeft p d vram a.index ≤ sx.val ∧
        (sx.val : Int) < spriteLeft p d vram a.index + d.extent ∧
        sourceBit d (spriteBits d vram a.index (sourceRow d a.row))
          ((sx.val : Int) - spriteLeft p d vram a.index).toNat = true :=
  coversUpTo_eq_true

/-- The covered columns, by displayed column `px` of the sprite (R161). -/
theorem spriteCovers_iff_exists {p : Params} {d : Fields} {vram : Memory} {a : ActiveSprite}
    {sx : Fin 256} : spriteCovers p d vram a sx = true ↔
      ∃ px : Nat, px < d.extent ∧ (sx.val : Int) = spriteLeft p d vram a.index + (px : Int) ∧
        sourceBit d (spriteBits d vram a.index (sourceRow d a.row)) px = true := by
  rw [spriteCovers_eq_true]
  constructor
  · rintro ⟨hleft, hright, hbit⟩
    exact ⟨_, by omega, by omega, hbit⟩
  · rintro ⟨px, hpx, hsx, hbit⟩
    refine ⟨by omega, by omega, ?_⟩
    rwa [show ((sx.val : Int) - spriteLeft p d vram a.index).toNat = px by omega]

theorem spriteLeft_of_earlyClock {p : Params} {d : Fields} {vram : Memory} {i : Fin 32}
    (h : (spriteAttr d vram i).getLsbD 7 = true) : spriteLeft p d vram i =
      ((memRead vram (attrAddr d i 1)).toNat : Int) - (p.ecShift : Int) := by
  simp only [spriteLeft, h, if_true]

/-! ## The source columns of a pattern row (R159, R129, R130) -/

/-- The two low bits of NAME cleared. -/
theorem and_0xFC_eq {name : Nat} (h : name < 256) : name &&& 0xFC = name / 4 * 4 := by
  have hlow : (name &&& 0xFC) % 4 = 0 := by
    rw [Nat.and_mod_two_pow (n := 2)]
    exact Nat.and_zero _
  have hhigh : (name &&& 0xFC) / 4 = name / 4 % 64 := by
    rw [Nat.and_div_two_pow (n := 2)]
    exact Nat.and_two_pow_sub_one_eq_mod _ 6
  omega

theorem spBase16_eq (d : Fields) {name : Nat} (h : name < 256) :
    spBase16 d name = d.sp.toNat + name / 4 * 32 := by
  rw [spBase16, and_0xFC_eq h, Nat.mul_assoc]

section
variable (left right : Byte) {c : Nat} (hc : c < 8)
include hc

/-- Source columns 0..7 are the left byte, bit 7 first. -/
theorem bits16_leftColumn : (left.setWidth 16 <<< 8 ||| right.setWidth 16).getLsbD (15 - c) =
    left.getLsbD (7 - c) := by
  have hright : right.getLsbD (15 - c) = false := BitVec.getLsbD_of_ge _ _ (by omega)
  have hcolumn : 7 - c < 16 ∧ 15 - c < 16 ∧ ¬15 - c < 8 ∧ 15 - c - 8 = 7 - c := by omega
  simp only [BitVec.getLsbD_or, BitVec.getLsbD_shiftLeft, BitVec.getLsbD_setWidth, hright,
    hcolumn, decide_true, decide_false, Bool.not_false, Bool.true_and, Bool.or_false]

/-- Source columns 8..15 are the right byte, bit 7 first. -/
theorem bits16_rightColumn :
    (left.setWidth 16 <<< 8 ||| right.setWidth 16).getLsbD (15 - (8 + c)) =
      right.getLsbD (7 - c) := by
  have hcolumn : 7 - c < 16 ∧ 7 - c < 8 ∧ 15 - (8 + c) = 7 - c := by omega
  simp only [BitVec.getLsbD_or, BitVec.getLsbD_shiftLeft, BitVec.getLsbD_setWidth, hcolumn,
    decide_true, Bool.not_true, Bool.and_false, Bool.false_and, Bool.true_and, Bool.false_or]

end

/-! ## What the drawn sprites show and hit (R161 to R165) -/

section
variable (p : Params) (d : Fields) (vram : Memory)

/-- Sprite `a` marks column `sx` for the collision test: it takes part in it and covers the
column (R162, R163). -/
def SpriteMarks (a : ActiveSprite) (sx : Fin 256) : Prop :=
  spriteCollides p d vram a = true ∧ spriteCovers p d vram a sx = true

/-- One more sprite is drawn after the others (R161). -/
theorem drawActive_concat (active : List ActiveSprite) (a : ActiveSprite) :
    drawActive p d vram (active ++ [a]) = drawSprite p d vram (drawActive p d vram active) a :=
  List.foldl_concat ..

theorem drawSprite_cover (b : Paint) (a : ActiveSprite) (sx : Fin 256) :
    (drawSprite p d vram b a).cover[sx] = true ↔
      b.cover[sx] = true ∨ SpriteMarks p d vram a sx := by
  rw [(drawSprite_painted p d vram b a).cover]
  exact or_congr_right and_comm

theorem drawSprite_hit (b : Paint) (a : ActiveSprite) :
    (drawSprite p d vram b a).hit = true ↔
      b.hit = true ∨ ∃ sx, b.cover[sx] = true ∧ SpriteMarks p d vram a sx := by
  rw [(drawSprite_painted p d vram b a).hit]
  refine or_congr_right (exists_congr fun sx => ?_)
  constructor
  · rintro ⟨hcov, hcol, hb⟩; exact ⟨hb, hcol, hcov⟩
  · rintro ⟨hb, hcol, hcov⟩; exact ⟨hcov, hcol, hb⟩

/-- A column already coloured keeps its colour (R164). -/
theorem drawSprite_scol_of_ne_zero {b : Paint} (a : ActiveSprite) {sx : Fin 256}
    (h : b.scol[sx] ≠ 0#4) : (drawSprite p d vram b a).scol[sx] = b.scol[sx] :=
  (drawSprite_painted p d vram b a).kept sx fun h' => h h'.2

/-- A column not yet coloured takes the sprite's colour where the sprite covers it (R164). -/
theorem drawSprite_scol_of_zero {b : Paint} (a : ActiveSprite) {sx : Fin 256}
    (h : b.scol[sx] = 0#4) : (drawSprite p d vram b a).scol[sx] =
      if spriteCovers p d vram a sx = true then spriteColour d vram a.index else 0#4 := by
  split
  · next hcov => exact (drawSprite_painted p d vram b a).shown sx hcov h
  · next hcov => exact ((drawSprite_painted p d vram b a).kept sx fun h' => hcov h'.1).trans h

/-- The first drawn sprite that is opaque and covers the column (R164). -/
def topSprite (active : List ActiveSprite) (sx : Fin 256) : Option ActiveSprite :=
  active.find? fun a => spriteOpaque d vram a && spriteCovers p d vram a sx

theorem spriteColour_of_topSprite {active : List ActiveSprite} {sx : Fin 256} {a : ActiveSprite}
    (h : topSprite p d vram active sx = some a) : spriteColour d vram a.index ≠ 0#4 := by
  have hfound := List.find?_some h
  exact of_decide_eq_true (Bool.and_eq_true_iff.1 hfound).1

/-- The colour of a sprite alone on its line, which is 0 if it is not opaque or does not cover. -/
theorem topSprite_singleton (a : ActiveSprite) (sx : Fin 256) :
    (topSprite p d vram [a] sx).elim 0#4 (fun a => spriteColour d vram a.index) =
      if spriteCovers p d vram a sx = true then spriteColour d vram a.index else 0#4 := by
  by_cases hcov : spriteCovers p d vram a sx = true
  · by_cases hz : spriteColour d vram a.index = 0#4 <;> simp [topSprite, spriteOpaque, hcov, hz]
  · simp [topSprite, hcov]

/-- The colour of a column is that of the first opaque sprite covering it, by induction on the
sprites drawn so far (R164). -/
theorem drawActive_scol (active : List ActiveSprite) (sx : Fin 256) :
    (drawActive p d vram active).scol[sx] =
      (topSprite p d vram active sx).elim 0#4 fun a => spriteColour d vram a.index := by
  induction active using List.reverseRecOn with
  | nil => simp [drawActive, Paint.start, LineState.start, topSprite]
  | append_singleton active a ih =>
    have happend : topSprite p d vram (active ++ [a]) sx =
        (topSprite p d vram active sx).or (topSprite p d vram [a] sx) := List.find?_append
    rw [drawActive_concat, happend]
    cases htop : topSprite p d vram active sx with
    | some top =>
      rw [htop] at ih
      have hne := spriteColour_of_topSprite p d vram htop
      rw [drawSprite_scol_of_ne_zero p d vram a (ih ▸ hne)]
      exact ih
    | none =>
      rw [htop] at ih
      rw [drawSprite_scol_of_zero p d vram a ih, Option.none_or, topSprite_singleton]

/-- A column is covered when some drawn sprite marks it (R162). -/
theorem drawActive_cover (active : List ActiveSprite) (sx : Fin 256) :
    (drawActive p d vram active).cover[sx] = true ↔ ∃ a ∈ active, SpriteMarks p d vram a sx := by
  induction active using List.reverseRecOn with
  | nil => simp [drawActive, Paint.start, LineState.start]
  | append_singleton active a ih =>
    rw [drawActive_concat, drawSprite_cover, ih]
    simp [or_and_right, exists_or]

/-- No column is marked by both sprites. -/
def SpritesApart (a b : ActiveSprite) : Prop :=
  ∀ sx, ¬(SpriteMarks p d vram a sx ∧ SpriteMarks p d vram b sx)

/-- A line collides unless its sprites are pairwise apart (R163). -/
theorem drawActive_hit (active : List ActiveSprite) :
    (drawActive p d vram active).hit = true ↔ ¬active.Pairwise (SpritesApart p d vram) := by
  induction active using List.reverseRecOn with
  | nil => simp [drawActive, Paint.start]
  | append_singleton active a ih =>
    have hshared : (∃ sx, (drawActive p d vram active).cover[sx] = true ∧
        SpriteMarks p d vram a sx) ↔ ¬∀ b ∈ active, SpritesApart p d vram b a := by
      simp only [drawActive_cover, SpritesApart]
      push Not
      constructor
      · rintro ⟨sx, ⟨b, hb, hmark⟩, ha⟩; exact ⟨b, hb, sx, hmark, ha⟩
      · rintro ⟨b, hb, sx, hmark, ha⟩; exact ⟨sx, ⟨b, hb, hmark⟩, ha⟩
    rw [drawActive_concat, drawSprite_hit, ih, hshared, List.pairwise_append, ← not_and_or]
    simp

end

/-! ## The sprite engine off, and the first pixel of a line (R151, R152, R160) -/

theorem engineRuns_of_text {d : Fields} (h : d.mode = .tx) : engineRuns d = false := by
  simp [engineRuns, h]

/-- With no sprite colour the background shows, and the backdrop where it is transparent (R177). -/
theorem compose_zero (bg backdrop : Colour) :
    compose 0#4 bg backdrop = if bg = 0#4 then backdrop else bg := by
  rw [compose, if_neg (not_not.2 rfl), ite_not]

/-- With the engine off the status byte of a RENDER is F alone (R21, R151). -/
theorem render_status_of_not_runs {p : Params} {regs : Vector Byte 8}
    (h : engineRuns (decodeRegs p regs) = false) (vram : Memory) :
    (render p regs vram).status = 0x80#8 := by
  rw [render_status, accAfter_of_not_runs h le_rfl]
  rfl

section
variable (p : Params) {d : Fields} (vram : Memory) (y : Nat) (acc : FrameAcc)

/-- The line state of a running engine: the sprites of the scan, and what drawing them paints. -/
theorem lineSprites_line_of_runs (h : engineRuns d = true) :
    (lineSprites p d vram y acc).1 =
      { active := (scanLine d vram y).1
        cover := (drawActive p d vram (scanLine d vram y).1).cover
        scol := (drawActive p d vram (scanLine d vram y).1).scol } := by
  rw [lineSprites, if_pos h]
  rfl

theorem lineSprites_of_not_runs (h : engineRuns d = false) :
    lineSprites p d vram y acc = (LineState.start, acc) :=
  if_neg (Bool.eq_false_iff.1 h)

end

/-- The first pixel of a line runs the engine for its sprite state (R152). -/
theorem madePixel_line_of_zero (d : Fields) (s : State) {r : Raster} (hx : r.x.val = 0) :
    (madePixel d s r).line = (lineSprites s.params d s.vram r.y.val r.acc).1 := by
  have hx0 : r.x = 0 := Fin.ext hx
  simp [madePixel, enterPixel, hx0]

/-- The first pixel of a line runs the engine for the accumulators (R160, R163). -/
theorem madePixel_acc_of_zero (d : Fields) (s : State) {r : Raster} (hx : r.x.val = 0) :
    (madePixel d s r).acc = (lineSprites s.params d s.vram r.y.val r.acc).2 := by
  have hx0 : r.x = 0 := Fin.ext hx
  simp [madePixel, enterPixel, hx0]

/-- Before the last column a RENDER goes on in the same line. -/
theorem rasterPixel_raster_of_lt (m : Mode) (s : State) {r : Raster} (hx : r.x.val < 255) :
    ∃ r', (rasterPixel m s r).raster = some r' ∧
      r'.line = (madePixel (decodeAs m s.regs) s r).line ∧
      r'.acc = (madePixel (decodeAs m s.regs) s r).acc := by
  obtain ⟨_, h⟩ | ⟨hx', -⟩ | ⟨hx', -⟩ :=
    advanceRaster_cases (decodeAs m s.regs) (madePixel (decodeAs m s.regs) s r) s
  · exact ⟨_, congrArg State.raster h, rfl, rfl⟩
  all_goals rw [madePixel_x] at hx'; omega

end Sys2Proof.Machine

open Sys2Proof Sys2Proof.Machine

/-- Settles O24, from what the scan of the 32 entries selects; a row in range is not negative. -/
theorem scanSelectsFirstFour : Obligations.ScanSelectsFirstFour := by
  intro d vram y
  refine ⟨?_, fun a ha => ?_, scanLine_fifth d vram y⟩
  · simp [scanLine_active, Function.comp_def]
  · obtain ⟨hmem, hrow⟩ := mem_scanLine_active ha
    obtain ⟨hpos, -⟩ := rowInRange_eq_true.1 (rowInRange_of_mem_spritesInRange hmem)
    rw [hrow, Int.toNat_of_nonneg hpos]

/-- Settles O25: the selected sprites and the fifth are among those before the first sentinel. -/
theorem sentinelEndsTable : Obligations.SentinelEndsTable := by
  intro d vram n y hn
  refine ⟨fun a ha => ?_, fun i hi => ?_⟩
  · exact lt_sentinel_of_mem_spritesInRange hn (mem_scanLine_active ha).1
  · rw [scanLine_fifth] at hi
    exact lt_sentinel_of_mem_spritesInRange hn (List.mem_of_getElem? hi)

/-- Settles O26, from the colour of a column after the sprites drawn. -/
theorem lowestOpaqueSpriteWins : Obligations.LowestOpaqueSpriteWins := by
  intro p d vram active sx
  rw [drawActive_scol, topSprite]
  cases active.find? fun a => spriteOpaque d vram a && spriteCovers p d vram a sx <;> rfl

/-- Settles O27: two sprites that are not apart mark one column. -/
theorem collisionIffSharedColumn : Obligations.CollisionIffSharedColumn := by
  intro p d vram active
  rw [drawActive_hit, List.pairwise_iff_getElem]
  simp only [SpritesApart, SpriteMarks]
  push Not
  constructor
  · rintro ⟨j, k, hj, hk, hjk, sx, ⟨hcol, hcov⟩, hcol', hcov'⟩
    exact ⟨j, k, hj, hk, sx, hjk, hcol, hcov, hcol', hcov'⟩
  · rintro ⟨j, k, hj, hk, sx, hjk, hcol, hcov, hcol', hcov'⟩
    exact ⟨j, k, hj, hk, hjk, sx, ⟨hcol, hcov⟩, hcol', hcov'⟩

/-- Settles O28: the sprite starts at column -32 and is at most 32 columns wide. -/
theorem earlyClockAtZeroIsOffScreen : Obligations.EarlyClockAtZeroIsOffScreen := by
  intro p m regs vram a sx hshift hx hec
  have hleft : spriteLeft p (decodeAs m regs) vram a.index = -32 := by
    rw [spriteLeft_of_earlyClock hec, hx, hshift]
    rfl
  have hextent := (decodeAs m regs).extent_le
  rw [← Bool.not_eq_true, spriteCovers_eq_true, hleft]
  rintro ⟨-, hright, -⟩
  omega

/-- Settles O59: a covered column is a displayed one, and a shift by MAG is a division by the
zoom. -/
theorem spriteColumnsFromXByte : Obligations.SpriteColumnsFromXByte := by
  intro p m regs vram a sx d attr x left zoom extent
  have hextent : d.extent = extent := d.extent_eq
  have hleft : spriteLeft p d vram a.index = left := by
    simp only [spriteLeft, Nat.cast_ite, Nat.cast_zero]
    rfl
  have hrow : sourceRow d a.row = a.row / zoom := shiftRight_toNat_eq_div a.row d.mag
  have hbit (bits : BitVec 16) (px : Nat) : sourceBit d bits px = bits.getLsbD (15 - px / zoom) :=
    congrArg (fun c => bits.getLsbD (15 - c)) (shiftRight_toNat_eq_div px d.mag)
  refine ⟨?_, lowNibble_toNat attr⟩
  simp only [spriteCovers_iff_exists, hextent, hleft, hrow, hbit]

/-- Settles O30, from the two bytes of a pattern row. -/
theorem spriteSourceColumns : Obligations.SpriteSourceColumns := by
  intro d vram i srow c hc name bits
  have hbase : spBase16 d name = d.sp.toNat + name / 4 * 32 := spBase16_eq d (BitVec.isLt _)
  refine ⟨fun hsize => ?_, fun hsize => ?_⟩
  · have hbits : bits = (memRead vram (d.sp.toNat + name * 8 + srow)).setWidth 16 <<< 8 |||
        (0x00#8).setWidth 16 := by
      simp only [bits, spriteBits, hsize, Bool.false_eq_true, if_false]
      rfl
    rw [hbits, bits16_leftColumn _ _ hc, bits16_rightColumn _ _ hc]
    exact ⟨rfl, BitVec.getLsbD_zero⟩
  · have hbits : bits =
        (memRead vram (d.sp.toNat + name / 4 * 32 + srow)).setWidth 16 <<< 8 |||
        (memRead vram (d.sp.toNat + name / 4 * 32 + 16 + srow)).setWidth 16 := by
      simp only [bits, spriteBits, hsize, if_true, spAddrL, spAddrR]
      rw [← hbase]
    rw [hbits]
    exact ⟨bits16_leftColumn _ _ hc, bits16_rightColumn _ _ hc⟩

/-- Settles O45: at column 0 the engine runs for the line, or leaves it empty, and the RENDER goes
on in it. -/
theorem enteringLineRunsSprites : Obligations.EnteringLineRunsSprites := by
  intro s r hr hx d scan paint
  obtain ⟨r', hr', hline, hacc⟩ :=
    rasterPixel_raster_of_lt (modeOf s.params s.regs) s (show r.x.val < 255 by omega)
  have hruns_iff : engineRuns d = true ↔ d.blankN = true ∧ d.mode ≠ .tx :=
    engineRuns_iff s.params s.regs
  replace hline := hline.trans (madePixel_line_of_zero d s hx)
  replace hacc := hacc.trans (madePixel_acc_of_zero d s hx)
  refine ⟨_, r', exec_keyRow_of_some hr, hr', ?_⟩
  rw [hline, hacc, ← hruns_iff]
  refine ⟨fun hruns => ?_, fun hoff => ?_⟩
  · rw [lineSprites_acc_of_runs hruns]
    refine ⟨lineSprites_line_of_runs _ _ _ _ hruns, latchOverflow_acc5S _ _, ?_, fun h5 => ?_,
      fun h5 i hi => ?_⟩
    · exact congrArg (· || paint.hit) (latchOverflow_accC _ _)
    · rw [latchOverflow_of_acc5S h5]
      rfl
    · rw [hi]
      exact latchOverflow_first h5 i
  · rw [lineSprites_of_not_runs _ _ _ _ (Bool.eq_false_iff.2 hoff)]
    exact ⟨rfl, rfl⟩

/-- Settles O20: the engine is off, so no column has a sprite colour and the accumulators never
move. -/
theorem textModeHasNoSprites : Obligations.TextModeHasNoSprites := by
  intro p regs vram hmode
  have hoff := engineRuns_of_text hmode
  refine ⟨render_status_of_not_runs hoff vram, fun x y => ?_⟩
  rw [render, renderFields_getElem?, pixelAt, pixelIndex, spriteLayer_of_not_runs p vram hoff,
    compose_zero]
  rfl

/-- Settles O29, by the sign of the Y coordinate. -/
theorem spriteLinesOfYByte : Obligations.SpriteLinesOfYByte := by
  intro extent y yByte
  simp only [rowInRange_eq_true, spriteRow]
  refine ⟨fun hy => ?_, fun hy => ?_⟩
  · rw [spriteTop_of_le hy]
    omega
  · rw [spriteTop_of_lt hy]
    have hbyte : yByte.toNat < 256 := yByte.isLt
    omega
end

section
/-! PROOFS. The statements about the host interface (46_host_interface.md): what each of the four
transactions does and how it is spelled, what a RENDER returns, and that a RENDER made pixel by
pixel returns the same. -/

namespace Sys2Proof

/-! ## The bytes of a transaction as numbers (30_encoding.md R80, R81) -/

theorem lowByte_eq_setWidth (v : Half) : lowByte v = v.setWidth 8 :=
  BitVec.eq_of_toNat_eq (by simp [lowByte])

theorem highByte_eq_setWidth (v : Half) : highByte v = (v >>> 8).setWidth 8 :=
  BitVec.eq_of_toNat_eq (by simp [highByte])

theorem lowByte_ofNat (n : Nat) : lowByte (BitVec.ofNat 16 n) = BitVec.ofNat 8 n :=
  BitVec.eq_of_toNat_eq (by simp [lowByte])

theorem highByte_ofNat (n : Nat) :
    highByte (BitVec.ofNat 16 n) = BitVec.ofNat 8 (n / 256) := by
  apply BitVec.eq_of_toNat_eq
  simp only [highByte, BitVec.extractLsb'_toNat, BitVec.toNat_ofNat, Nat.shiftRight_eq_div_pow]
  omega

/-- A 16-bit operand is its low byte, then its high byte. -/
theorem halfBytes_eq (v : Half) : halfBytes v = [v.setWidth 8, (v >>> 8).setWidth 8] := by
  rw [halfBytes, lowByte_eq_setWidth, highByte_eq_setWidth]

/-- A payload is preceded by its length, the low byte first. -/
theorem payloadBytes_eq (payload : List Byte) : payloadBytes payload =
    BitVec.ofNat 8 payload.length :: BitVec.ofNat 8 (payload.length / 256) :: payload := by
  rw [payloadBytes, halfBytes, lowByte_ofNat, highByte_ofNat]
  rfl

theorem payloadFits_of_lt {payload : List Byte} (h : payload.length < 65536) :
    payloadFits payload = true :=
  decide_eq_true h

end Sys2Proof

namespace Sys2Proof.Machine

/-! ## What each transaction does with no RENDER in progress (R181 to R189) -/

section
variable {s : State} (hn : s.raster = none)
include hn

theorem exec_setregs_of_length_ne {payload : List Byte} (h : payload.length ≠ 8) :
    exec (.setregs payload) s = .next (s.raise .invalidLength) := by
  refine perform_eq_next.2 ⟨hn, ?_⟩
  rw [payloadRegs_eq_none.2 h]

theorem exec_setvram_of_outOfRange {offset : Half} {payload : List Byte}
    (h : 16383 < offset.toNat ∨ 16384 < offset.toNat + payload.length) :
    exec (.setvram offset payload) s = .next (s.raise .outOfRange) :=
  perform_eq_next.2 ⟨hn, if_pos (vramOutOfRange_iff.2 h)⟩

theorem exec_readvram (addr : Half) :
    exec (.readvram addr) s = .next (s.respond (dataReply (readOperand s.vram addr))) :=
  perform_of_none hn

theorem exec_render :
    exec .render s = .next (s.respond (pictureReply (render s.params s.regs s.vram))) :=
  perform_of_none hn

end

/-! ## VRAM after a SETVRAM (R183, R186) -/

/-- A byte written into VRAM is what is read there. -/
theorem memRead_writeBytes_window {m : Memory} {offset k : Nat} {bytes : List Byte}
    (hwf : Memory.wf m = true) (hend : offset + bytes.length ≤ vramSize) (hk : k < bytes.length) :
    memRead (Memory.writeBytes m offset bytes) (offset + k) = bytes[k] := by
  rw [memRead_writeBytes hwf hend (by omega), dif_pos (by omega)]
  simp only [Nat.add_sub_cancel_left]

/-- No instruction but SETVRAM writes VRAM. -/
theorem exec_vram_of_ne_setvram {i : Instr} {s t : State} (hne : ∀ o b, i ≠ .setvram o b)
    (h : exec i s = .next t) : t.vram = s.vram := by
  cases hi : i.isModeRow with
  | true =>
    rw [exec_modeRow hi] at h
    obtain ⟨r, -, rfl⟩ := rasterStep_eq_next.1 h
    exact rasterPixel_vram r s _
  | false =>
    by_contra hvram
    obtain ⟨o, b, rfl, -⟩ := exec_transaction_vram_ne hi h hvram
    exact hne o b rfl

theorem performAll_cons_eq_next {i : Instr} {is : List Instr} {s t : State} :
    performAll (i :: is) s = .next t ↔ ∃ u, exec i s = .next u ∧ performAll is u = .next t := by
  cases h : exec i s <;> simp [performAll, h]

theorem performAll_vram_of_ne_setvram {is : List Instr} {s t : State}
    (hne : ∀ i ∈ is, ∀ o b, i ≠ .setvram o b) (h : performAll is s = .next t) :
    t.vram = s.vram := by
  induction is generalizing s with
  | nil =>
    cases h
    rfl
  | cons i is ih =>
    obtain ⟨hi, his⟩ := List.forall_mem_cons.1 hne
    obtain ⟨u, hu, ht⟩ := performAll_cons_eq_next.1 h
    exact (ih his ht).trans (exec_vram_of_ne_setvram hi hu)

/-! ## The status byte as a number (10_state.md R21) -/

/-- Bits 7, 6 and 5 are F, 5S and C, and the five below them FSN. -/
theorem statusByte_toNat (acc : FrameAcc) : (statusByte acc).toNat =
    128 + 64 * acc.acc5S.toNat + 32 * acc.accC.toNat +
      (if acc.acc5S then acc.accFSN.toNat else 0) := by
  have hF := Nat.toNat_testBit (statusByte acc).toNat 7
  have h5S := Nat.toNat_testBit (statusByte acc).toNat 6
  have hC := Nat.toNat_testBit (statusByte acc).toNat 5
  rw [BitVec.testBit_toNat, statusByte_F, Bool.toNat_true] at hF
  rw [BitVec.testBit_toNat, statusByte_5S] at h5S
  rw [BitVec.testBit_toNat, statusByte_C] at hC
  rw [← statusByte_mod]
  have hbyte : (statusByte acc).toNat < 256 := (statusByte acc).isLt
  omega

/-! ## A RENDER pixel by pixel (R187, R190) -/

/-- A RENDER begun and given up leaves nothing behind. -/
theorem State.setRaster_beginRender {s : State} (hn : s.raster = none) :
    s.beginRender.setRaster none = s := by
  cases s
  cases hn
  rfl

/-- A RENDER with no pixel made is one of every register bank and VRAM. -/
theorem Raster.start_inv (p : Params) (regs : Vector Byte 8) (vram : Memory) :
    Raster.start.Inv p regs vram :=
  ⟨rfl, rfl, rfl, rfl, ⟨Nat.zero_le 4, List.Pairwise.nil⟩, fun _ => rfl⟩

/-- The picture of the accumulators after scanline 191 and the pixels of the frame. -/
theorem render_eq_finishPicture (p : Params) (regs : Vector Byte 8) (vram : Memory) :
    render p regs vram = finishPicture (decodeRegs p regs) (render p regs vram).frame
      (accAfter p (decodeRegs p regs) vram 192) := by
  rw [← renderFields_acc]
  rfl

section
variable {s : State} {r : Raster}

/-- The last pixel completes the picture. -/
theorem Raster.Inv.finishPicture_madePixel (h : r.Inv s.params s.regs s.vram)
    (hx : r.x.val = 255) (hy : r.y.val = 191) :
    finishPicture (decodeRegs s.params s.regs) (madePixel (decodeRegs s.params s.regs) s r).pixels
        (madePixel (decodeRegs s.params s.regs) s r).acc =
      render s.params s.regs s.vram := by
  have hlen : (render s.params s.regs s.vram).frame.length ≤ 191 * 256 + 255 + 1 :=
    (renderFields_length ..).le
  rw [h.madePixel_frame, madePixel_acc h, hx, hy, List.take_of_length_le hlen]
  exact (render_eq_finishPicture ..).symm

/-- The next pixel of a RENDER with the invariant: it goes on one position further with the
invariant, or returns its picture. -/
theorem Raster.Inv.rasterPixel_cases (h : r.Inv s.params s.regs s.vram) :
    (∃ r', rasterPixel (modeOf s.params s.regs) s r = s.setRaster (some r') ∧
      r'.Inv s.params s.regs s.vram ∧
      r'.y.val * 256 + r'.x.val = r.y.val * 256 + r.x.val + 1) ∨
    (r.x.val = 255 ∧ r.y.val = 191 ∧ rasterPixel (modeOf s.params s.regs) s r =
      (s.setRaster none).respond (pictureReply (render s.params s.regs s.vram))) := by
  obtain ⟨hx, hr⟩ | ⟨hx, hy, hr⟩ | ⟨hx, hy, hr⟩ := advanceRaster_cases
    (decodeRegs s.params s.regs) (madePixel (decodeRegs s.params s.regs) s r) s
  all_goals rw [show rasterPixel _ s r = _ from hr]
  · refine .inl ⟨_, rfl, by simpa using h.nextColumn (by simpa using hx), ?_⟩
    simp [Nat.add_assoc]
  · rw [madePixel_x] at hx
    refine .inl ⟨_, rfl, by simpa using h.nextLine hx (by simpa using hy), ?_⟩
    simp only [madePixel_y, Fin.val_zero]
    omega
  · rw [madePixel_x] at hx
    rw [madePixel_y] at hy
    rw [h.finishPicture_madePixel hx hy]
    exact .inr ⟨hx, hy, rfl⟩

/-- As many steps as there are pixels left return the picture, by induction on that number. -/
theorem Raster.Inv.run_eq_render {n : Nat} (h : r.Inv s.params s.regs s.vram)
    (hr : s.raster = some r) (hn : r.y.val * 256 + r.x.val + n = 49152) :
    Host.Core.run Sys2Proof.core n s =
      .next ((s.setRaster none).respond (pictureReply (render s.params s.regs s.vram))) := by
  induction n generalizing s r with
  | zero => omega
  | succ n ih =>
    have hstep := (step_of_raster hr).trans (exec_keyRow_of_some hr)
    obtain ⟨r', hnext, hinv, hpos⟩ | ⟨hx, hy, hlast⟩ := h.rasterPixel_cases
    · rw [core_run_succ (hstep.trans (congrArg _ hnext))]
      exact ih (s := s.setRaster (some r')) hinv rfl (by linarith)
    · obtain rfl : n = 0 := by omega
      exact core_run_succ (hstep.trans (congrArg _ hlast))

end

end Sys2Proof.Machine

open Sys2Proof Sys2Proof.Machine

/-- Settles O14: in range by a read after consecutive writes, out of range by the check, and the
bytes are the encoding. -/
theorem setvramWritesWindowOrFails : Obligations.SetvramWritesWindowOrFails := by
  intro s offset payload hn hwf
  refine ⟨fun hoffset hend => ?_, exec_setvram_of_outOfRange hn, fun hlen => ?_⟩
  · refine ⟨_, exec_setvram_of_inRange hn hoffset hend, fun k hk => ?_, fun a ha hout => ?_,
      rfl, rfl, rfl, hn, rfl⟩
    · exact memRead_writeBytes_window hwf hend hk
    · rw [State.succeed_vram, State.writeVram_vram, memRead_writeBytes hwf hend ha,
        dif_neg (by omega)]
  · have henc := decode_encode (i := .setvram offset payload) (payloadFits_of_lt hlen) rfl
    rw [encode, Code.toBytes, halfBytes_eq, payloadBytes_eq] at henc
    exact henc

/-- Settles O16: the instructions between leave VRAM as SETVRAM left it. -/
theorem readBackAfterWrite : Obligations.ReadBackAfterWrite := by
  intro s t u offset payload between k hn hwf hoffset hend hk hne hperform hread
  obtain ⟨w, hw, hbetween⟩ := performAll_cons_eq_next.1 hperform
  obtain rfl := Host.Outcome.next.inj ((exec_setvram_of_inRange hn hoffset hend).symm.trans hw)
  obtain ⟨-, rfl⟩ := perform_eq_next.1 hread
  have haddr : (offset + BitVec.ofNat 16 k).toNat = offset.toNat + k := by
    rw [BitVec.toNat_add, BitVec.toNat_ofNat]
    omega
  have hbyte : readOperand t.vram (offset + BitVec.ofNat 16 k) = payload[k] := by
    rw [readOperand, haddr, performAll_vram_of_ne_setvram hne hbetween, State.succeed_vram,
      State.writeVram_vram, memRead_writeBytes_window hwf hend hk]
  rw [hbyte]
  rfl

/-- Settles O17, from the pixels of a frame and the accumulators after its last scanline. -/
theorem renderReturnsPicture : Obligations.RenderReturnsPicture := by
  intro s hn d acc
  refine ⟨rfl, render s.params s.regs s.vram, exec_render hn, renderFields_length .., fun x y => ?_,
    ?_, intOutput_statusByte ..⟩
  · exact renderFields_getElem? s.params d s.vram x y
  · have hstatus : (render s.params s.regs s.vram).status = statusByte acc :=
      congrArg statusByte (renderLines_acc s.params d s.vram _ _)
    rw [hstatus, statusByte_toNat]

/-- Settles O46: a RENDER begun has all 49152 pixels left. -/
theorem renderWholeIsPixelByPixel : Obligations.RenderWholeIsPixelByPixel := by
  intro s hn
  refine ⟨_, exec_render hn, ?_⟩
  have hrun := (Raster.start_inv s.params s.regs s.vram).run_eq_render (s := s.beginRender)
    (n := 49152) rfl rfl
  rw [hrun, State.setRaster_beginRender hn]
  rfl

/-- Settles O60, from what the next pixel of a RENDER with the invariant is. -/
theorem stepMakesNextFramePixel : Obligations.StepMakesNextFramePixel := by
  intro s r hs hr d
  have hinv := hs.raster r hr
  refine ⟨hinv.spriteAtRaster_eq, _, (step_of_raster hr).trans (exec_keyRow_of_some hr), ?_,
    fun hx hy => ?_⟩
  · rw [pixelsSoFar_rasterPixel]
    exact hinv.madePixel_frame
  · obtain ⟨r', -, -, hpos⟩ | ⟨-, -, hlast⟩ := hinv.rasterPixel_cases
    · omega
    · rw [hlast]
      rfl

/-- Settles O12: 8 bytes are a register bank, any other count is none, and the bytes are the
encoding. -/
theorem setregsReplacesBankOrFails : Obligations.SetregsReplacesBankOrFails := by
  intro s payload hn
  refine ⟨fun hlen => ?_, exec_setregs_of_length_ne hn, fun hlen => ?_⟩
  · obtain ⟨regs, rfl⟩ := exists_regs_of_length hlen
    refine ⟨_, exec_setregs_toList hn regs, fun n => ?_, rfl, rfl, rfl, hn, rfl⟩
    simp
  · have henc := decode_encode (i := .setregs payload) (payloadFits_of_lt hlen) rfl
    rw [encode, Code.toBytes, payloadBytes_eq] at henc
    exact henc

/-- Settles O13: the RENDER is performed in the state SETREGS leaves. -/
theorem renderSeesNewRegisters : Obligations.RenderSeesNewRegisters := by
  intro s regs hn
  have hrender := exec_render (s := (s.setRegs regs).succeed) hn
  exact ⟨_, (performAll_cons (exec_setregs_toList hn regs)).trans (performAll_cons hrender), rfl,
    rfl⟩

/-- Settles O15: the reply holds the byte, and the bytes are the encoding. -/
theorem readvramReturnsByte : Obligations.ReadvramReturnsByte := by
  intro s addr hn
  refine ⟨exec_readvram hn addr, ?_⟩
  have henc := decode_encode (i := .readvram addr) rfl rfl
  rw [encode, Code.toBytes, halfBytes_eq] at henc
  exact henc

/-- Settles O22: the picture returned is a function of parameters, registers and VRAM. -/
theorem renderDependsOnRegsAndVram : Obligations.RenderDependsOnRegsAndVram := by
  intro s s' hn hn' hparams hregs hvram
  refine ⟨_, _, exec_render hn, exec_render hn', ?_, rfl, rfl, rfl⟩
  rw [State.respond_reply, State.respond_reply, hparams, hregs, hvram]
end

section
/-! PROOFS. The statements about errors and the idle step (60_exceptions.md): the result code of a
transaction is read off the transaction alone, and an error is delivered by `State.raise` only. -/

namespace Sys2Proof.Machine

/-! ## Result codes (R196) -/

theorem ResultCode.number_le_two (c : ResultCode) : c.number ≤ 2 := by
  cases c <;> decide

theorem ResultCode.number_eq_one {c : ResultCode} : c.number = 1 ↔ c = .invalidLength := by
  cases c <;> decide

theorem ResultCode.number_eq_two {c : ResultCode} : c.number = 2 ↔ c = .outOfRange := by
  cases c <;> decide

theorem ResultCode.number_ne_zero {c : ResultCode} : c.number ≠ 0 ↔ c ≠ .ok := by
  cases c <;> decide

/-! ## The code of a transaction (R197, R198) -/

/-- The code a transaction returns, whatever state it is performed in. -/
def resultCode : Instr → ResultCode
  | .setregs payload => if payload.length = 8 then .ok else .invalidLength
  | .setvram offset payload => if vramOutOfRange offset payload then .outOfRange else .ok
  | _ => .ok

theorem resultCode_eq_invalidLength {i : Instr} : resultCode i = .invalidLength ↔
    ∃ payload, i = .setregs payload ∧ payload.length ≠ 8 := by
  cases i with
  | setregs payload => simp [resultCode]
  | setvram offset payload => simp [resultCode, ite_eq_iff]
  | readvram | render | modeG1 | modeG1UndocM1M2 | modeG2 | modeMC | modeTX =>
    simp [resultCode]

theorem resultCode_eq_outOfRange {i : Instr} : resultCode i = .outOfRange ↔
    ∃ offset payload, i = .setvram offset payload ∧
      (16383 < offset.toNat ∨ 16384 < offset.toNat + payload.length) := by
  cases i with
  | setregs payload => simp [resultCode, ite_eq_iff]
  | setvram offset payload => simp [resultCode, ← vramOutOfRange_iff]
  | readvram | render | modeG1 | modeG1UndocM1M2 | modeG2 | modeMC | modeTX =>
    simp [resultCode]

/-- A transaction that completes replies with its code, and one with an error does nothing else
(R200). -/
theorem exec_transaction_resultCode {i : Instr} {s t : State} (hi : i.isModeRow = false)
    (h : exec i s = .next t) :
    ∃ reply, t.reply = some reply ∧ reply.code = resultCode i ∧
      (reply.code ≠ .ok → t = s.raise reply.code) := by
  obtain ⟨-, ⟨_, regs, rfl, rfl, rfl⟩ | ⟨_, rfl, hlen, rfl⟩ | ⟨_, _, rfl, hend, hoffset, rfl⟩ |
    ⟨_, _, rfl, hrange, rfl⟩ | ⟨_, rfl, rfl⟩ | ⟨rfl, rfl⟩⟩ := exec_transaction_next hi h
  · exact ⟨_, rfl, (if_pos regs.length_toList).symm, absurd rfl⟩
  · exact ⟨_, rfl, (if_neg hlen).symm, fun _ => rfl⟩
  · refine ⟨_, rfl, (if_neg ?_).symm, absurd rfl⟩
    rw [vramOutOfRange_iff]
    omega
  · exact ⟨_, rfl, (if_pos hrange).symm, fun _ => rfl⟩
  · exact ⟨_, rfl, rfl, absurd rfl⟩
  · exact ⟨_, rfl, rfl, absurd rfl⟩

/-! ## The idle step (R211) -/

theorem fetch_of_input_nil {s : State} (hn : s.raster = none) (hin : s.input = []) :
    fetch s = .idle := by
  simp only [fetch, hn, fetchTransaction, hin]

end Sys2Proof.Machine

open Sys2Proof Sys2Proof.Machine

/-- Settles O49, from the code each transaction returns. -/
theorem errorsAreBadInputOnly : Obligations.ErrorsAreBadInputOnly := by
  intro i s t hi h
  obtain ⟨reply, hreply, hcode, herror⟩ := exec_transaction_resultCode hi h
  refine ⟨reply, hreply, ?_, ?_, reply.code.number_le_two, fun hne => ?_⟩
  · rw [ResultCode.number_eq_one, hcode, resultCode_eq_invalidLength]
  · rw [ResultCode.number_eq_two, hcode, resultCode_eq_outOfRange]
  · exact herror (ResultCode.number_ne_zero.1 hne)

/-- Settles O9: nothing is fetched. -/
theorem stepIdleHolds : Obligations.StepIdleHolds := by
  intro s hn hin
  rw [step, fetch_of_input_nil hn hin]
end

section
/-! PROOFS. The statements about creation and hazards (70_reset_and_hazards.md): the initial values
an instance takes, and a transaction while a RENDER is in progress. -/

namespace Sys2Proof.Machine

/-! ## Creation (R216) -/

/-- A VRAM made of given bytes reads as them, address by address. -/
theorem memRead_ofBytes {bytes : List Byte} {a : Nat} (ha : a < vramSize)
    (hlen : a < bytes.length) : memRead (Memory.ofBytes bytes) a = bytes[a] := by
  have hk : a < (bytes.take vramSize).length := by
    rw [List.length_take]
    exact Nat.lt_min.2 ⟨ha, hlen⟩
  have hread := memRead_writeBytes_window (offset := 0) Memory.wf_nil (by simp) hk
  rwa [Nat.zero_add, List.getElem_take] at hread

/-- A new instance has the invariant, however many bytes `P_INIT_VRAM` lists. -/
theorem State.create_inv (p : Params) (regs : Vector Byte 8) (vram : List Byte) :
    (State.create p regs vram).Inv :=
  ⟨Memory.wf_ofBytes vram, nofun, nofun⟩

/-! ## A transaction while a RENDER is in progress (R222) -/

/-- Every transaction is performed under the guard of R222. -/
theorem exec_transaction_of_some {i : Instr} {s : State} {r : Raster} (hi : i.isModeRow = false)
    (h : s.raster = some r) : exec i s = .refused .renderInProgress := by
  cases i with
  | setregs | setvram | readvram | render => exact perform_of_some h
  | modeG1 | modeG1UndocM1M2 | modeG2 | modeMC | modeTX => cases hi

end Sys2Proof.Machine

open Sys2Proof Sys2Proof.Machine

/-- Settles O56: the registers are stored as given, and VRAM lists the given bytes from address 0. -/
theorem creationTakesInitialValues : Obligations.CreationTakesInitialValues := by
  intro p regs vram hlen
  exact ⟨rfl, rfl, fun _ ha => memRead_ofBytes ha (hlen ▸ ha), rfl, rfl,
    State.create_inv p regs vram⟩

/-- Settles O47 by `exec_transaction_of_some`. -/
theorem transactionDuringRenderRefused : Obligations.TransactionDuringRenderRefused :=
  fun _ _ _ hi h => exec_transaction_of_some hi h
end
